-- ==== Sys2Proof/Word.lean ====
section
/-! DEFINITION. The word types: bytes, 16-bit addresses, 16-bit instruction words, and the index types the spec fixes (R10, R12, R21). -/

namespace Sys2Proof

/-- An 8-bit unsigned value: a general register, a timer, a byte of memory (R12, R21, R30). -/
abbrev Byte := BitVec 8

/-- A 16-bit unsigned value held in `I`, `pc` or a stack entry (R23, R24, R25). -/
abbrev Addr := BitVec 16

/-- A 16-bit instruction word (R70). -/
abbrev Word := BitVec 16

/-- A general-register index 0..15, "always in bounds by construction" (R21). -/
abbrev Reg := Fin 16

/-- `VF`, the flags register: `V[15]` (R22). -/
abbrev VF : Reg := 15

end Sys2Proof
end

