-- ==== Sys2Proof/Config.lean ====
section
/-! DEFINITION. The implementation parameters of R5 (types and fixed values; the defaults are Machine/Defaults.lean) and the one free value, the random draw of R160. -/

namespace Sys2Proof.Config

/-- `MEM_SIZE` (R5, R50): 4092 bytes, or the alternative 4096. -/
inductive MemSize where
  | bytes4092
  | bytes4096
  deriving DecidableEq, Repr

/-- The number a `MemSize` names. -/
def MemSize.bytes : MemSize → Nat
  | .bytes4092 => 4092
  | .bytes4096 => 4096

/-- `SHL_FLAG` (R5, R151): what `SHL` writes to `VF`. -/
inductive ShlFlag where
  | bit3
  | bit3Raw
  | bit7
  deriving DecidableEq, Repr

/-- `ARITH_FLAG_ORDER` (R5, R146): which of the two writes to `VF` lands last when `x = 15`. -/
inductive ArithFlagOrder where
  | flagLast
  | resultLast
  deriving DecidableEq, Repr

/-- `DECODE_5_9` (R5, R75): whether `5xyn` and `9xyn` with `n != 0` decode. -/
inductive Decode59 where
  | ignoreN
  | requireN0
  deriving DecidableEq, Repr

/-- `BNNN_MODE` (R5, R127): the meaning of words `0xBnnn`. -/
inductive BnnnMode where
  | unrecognized
  | jumpV0
  deriving DecidableEq, Repr

/-- `CALL_OVERFLOW_PC` (R5, R122): `pc` after a `CALL` that overflows the stack. -/
inductive CallOverflowPc where
  | advance
  | hold
  deriving DecidableEq, Repr

/-- The parameters of R5, "taken as a configuration argument". -/
structure Params where
  memSize        : MemSize
  shlFlag        : ShlFlag
  arithFlagOrder : ArithFlagOrder
  decode59       : Decode59
  bnnnMode       : BnnnMode
  callOverflowPc : CallOverflowPc
  /-- `FONT_PRELOAD`: the platform's byte string; the empty list is the spec's `none` (R272). -/
  fontPreload    : List Byte
  deriving DecidableEq, Repr

/-- `PROG_START`: load offset of the image and creation value of `pc` (R5, R34). -/
def progStart : Nat := 0x200

/-- A platform's font is at most 0x200 bytes (R272). -/
def Params.wf (p : Params) : Bool := p.fontPreload.length ≤ progStart

/-- `draw_rnd()` (R9, R160): the free 8-bit draw, one for each count of draws taken. No body: a claim about it holds for every draw (U1). Log 5. -/
opaque freeDraw : Nat → Byte

end Sys2Proof.Config
end

