-- ==== Sys2Proof/Machine/Defaults.lean ====
section
/-! DEFINITION. The parameter values this hardware is created with: the default column of R5. -/

namespace Sys2Proof.Machine

/-- The defaults of R5: the values "this spec fixes for this hardware" (log 2). -/
def defaultParams : Config.Params where
  memSize        := .bytes4092
  shlFlag        := .bit3
  arithFlagOrder := .flagLast
  decode59       := .ignoreN
  bnnnMode       := .unrecognized
  callOverflowPc := .advance
  fontPreload    := []

end Sys2Proof.Machine
end

