-- ==== Sys2Proof/Syntax.lean ====
section
/-! DEFINITION. The abstract syntax: one constructor for each of the 34 rows of spec/opcode_table.json (R74), with the row's fields. -/

namespace Sys2Proof

/-- An instruction (R74). An unrecognized word (R76) is no instruction: the decoder rejects it by name. -/
inductive Instr where
  /-- `00E0` `CLS` (R190). -/
  | cls
  /-- `00EE` `RET` (R120). -/
  | ret
  /-- `1nnn` `JP addr` (R121). -/
  | jpAddr (nnn : BitVec 12)
  /-- `2nnn` `CALL addr` (R122). -/
  | callAddr (nnn : BitVec 12)
  /-- `3xkk` `SE Vx, byte` (R123). -/
  | seVxByte (x : Reg) (kk : Byte)
  /-- `4xkk` `SNE Vx, byte` (R124). -/
  | sneVxByte (x : Reg) (kk : Byte)
  /-- `5xyn` `SE Vx, Vy` (R125); the low nibble `n` is kept so that no bit of the word is lost (log 11). -/
  | seVxVy (x y n : Fin 16)
  /-- `6xkk` `LD Vx, byte` (R140). -/
  | ldVxByte (x : Reg) (kk : Byte)
  /-- `7xkk` `ADD Vx, byte` (R141). -/
  | addVxByte (x : Reg) (kk : Byte)
  /-- `8xy0` `LD Vx, Vy` (R142). -/
  | ldVxVy (x y : Reg)
  /-- `8xy1` `OR Vx, Vy` (R143). -/
  | orVxVy (x y : Reg)
  /-- `8xy2` `AND Vx, Vy` (R144). -/
  | andVxVy (x y : Reg)
  /-- `8xy3` `XOR Vx, Vy` (R145). -/
  | xorVxVy (x y : Reg)
  /-- `8xy4` `ADD Vx, Vy` (R147). -/
  | addVxVy (x y : Reg)
  /-- `8xy5` `SUB Vx, Vy` (R148). -/
  | subVxVy (x y : Reg)
  /-- `8xy6` `SHR Vx {, Vy}` (R149); `y` is decoded and ignored. -/
  | shrVx (x y : Reg)
  /-- `8xy7` `SUBN Vx, Vy` (R150). -/
  | subnVxVy (x y : Reg)
  /-- `8xyE` `SHL Vx {, Vy}` (R151); `y` is decoded and ignored. -/
  | shlVx (x y : Reg)
  /-- `9xyn` `SNE Vx, Vy` (R126); the low nibble `n` is kept (log 11). -/
  | sneVxVy (x y n : Fin 16)
  /-- `Annn` `LD I, addr` (R170). -/
  | ldIAddr (nnn : BitVec 12)
  /-- `Bnnn` `JP V0, addr` (R127), an instruction only of a machine with `BNNN_MODE = jump_v0`. -/
  | jpV0Addr (nnn : BitVec 12)
  /-- `Cxkk` `RND Vx, byte` (R160). -/
  | rndVxByte (x : Reg) (kk : Byte)
  /-- `Dxyn` `DRW Vx, Vy, nibble` (R191). -/
  | drw (x y n : Fin 16)
  /-- `Ex9E` `SKP Vx` (R210). -/
  | skpVx (x : Reg)
  /-- `ExA1` `SKNP Vx` (R211). -/
  | sknpVx (x : Reg)
  /-- `Fx07` `LD Vx, DT` (R213). -/
  | ldVxDT (x : Reg)
  /-- `Fx0A` `LD Vx, K` (R212). -/
  | ldVxK (x : Reg)
  /-- `Fx15` `LD DT, Vx` (R214). -/
  | ldDTVx (x : Reg)
  /-- `Fx18` `LD ST, Vx` (R215). -/
  | ldSTVx (x : Reg)
  /-- `Fx1E` `ADD I, Vx` (R171). -/
  | addIVx (x : Reg)
  /-- `Fx29` `LD F, Vx` (R172). -/
  | ldFVx (x : Reg)
  /-- `Fx33` `LD B, Vx` (R173). -/
  | ldBVx (x : Reg)
  /-- `Fx55` `LD [I], Vx` (R174). -/
  | ldMemVx (x : Reg)
  /-- `Fx65` `LD Vx, [I]` (R175). -/
  | ldVxMem (x : Reg)
  deriving DecidableEq, Repr

end Sys2Proof
end

