-- ==== Sys2Proof/WellFormed.lean ====
section
/-! DEFINITION. Which instructions a machine with given parameters has (R75, R76). Register indexes, immediates and addresses are in range by their types (R21, R72). -/

namespace Sys2Proof

/-- An instruction of the machine with parameters `p`. The two parametric rows of R74: `5xyn`/`9xyn` with `n != 0` only under `ignore_n`; `Bnnn` only under `jump_v0`. -/
def Instr.wellFormed (p : Config.Params) : Instr → Bool
  | .seVxVy _ _ n  => p.decode59 = .ignoreN || n = 0
  | .sneVxVy _ _ n => p.decode59 = .ignoreN || n = 0
  | .jpV0Addr _    => p.bnnnMode = .jumpV0
  | .cls | .ret | .jpAddr _ | .callAddr _ | .seVxByte _ _ | .sneVxByte _ _
  | .ldVxByte _ _ | .addVxByte _ _ | .ldVxVy _ _ | .orVxVy _ _ | .andVxVy _ _ | .xorVxVy _ _
  | .addVxVy _ _ | .subVxVy _ _ | .shrVx _ _ | .subnVxVy _ _ | .shlVx _ _
  | .ldIAddr _ | .rndVxByte _ _ | .drw _ _ _ | .skpVx _ | .sknpVx _
  | .ldVxDT _ | .ldVxK _ | .ldDTVx _ | .ldSTVx _
  | .addIVx _ | .ldFVx _ | .ldBVx _ | .ldMemVx _ | .ldVxMem _ => true

end Sys2Proof
end

