-- ==== Sys2Proof/Decode.lean ====
section
/-! DEFINITION. The decoder of R75, total on every word and rejecting by name (R76); the encoder from the same opcode map (R74); and the byte order of an instruction word (R56). -/

namespace Sys2Proof

/-! ### Fields of a word (R10, R71) -/

/-- `w[hi:lo]`: the unsigned value of bits `hi` down to `lo` (R10). -/
def bits (w : Word) (hi lo : Nat) : Nat := w.toNat / 2 ^ lo % 2 ^ (hi + 1 - lo)

/-- `op = w[15:12]` (R71). -/
def opOf (w : Word) : Fin 16 := Fin.ofNat 16 (bits w 15 12)

/-- `x = w[11:8]` (R71). -/
def xOf (w : Word) : Fin 16 := Fin.ofNat 16 (bits w 11 8)

/-- `y = w[7:4]` (R71). -/
def yOf (w : Word) : Fin 16 := Fin.ofNat 16 (bits w 7 4)

/-- `n = w[3:0]` (R71). -/
def nOf (w : Word) : Fin 16 := Fin.ofNat 16 (bits w 3 0)

/-- `kk = w[7:0]` (R71). -/
def kkOf (w : Word) : Byte := BitVec.ofNat 8 (bits w 7 0)

/-- `nnn = w[11:0]` (R71). -/
def nnnOf (w : Word) : BitVec 12 := BitVec.ofNat 12 (bits w 11 0)

/-! ### Decoding (R75, R76) -/

/-- Why a word is unrecognized: one name for each bullet of R76. -/
inductive Unrecognized where
  /-- `0x0nnn` other than `0x00E0` and `0x00EE`. -/
  | group0
  /-- `0xBnnn` while `BNNN_MODE = unrecognized`. -/
  | groupB
  /-- `0x8xy8` to `0x8xyD` and `0x8xyF`. -/
  | group8
  /-- `0xExkk` with `kk` neither 0x9E nor 0xA1. -/
  | groupE
  /-- `0xFxkk` with `kk` not one of the nine of R76. -/
  | groupF
  /-- `0x5xyn` with `n != 0` under `DECODE_5_9 = require_n0`. -/
  | group5
  /-- `0x9xyn` with `n != 0` under `DECODE_5_9 = require_n0`. -/
  | group9
  deriving DecidableEq, Repr

/-- What the decoder answers: an instruction, or the reason the word is none. -/
inductive Decoded where
  | instr (i : Instr)
  | unrecognized (why : Unrecognized)
  deriving DecidableEq, Repr

/-- Group 0: the whole word is compared (R75, D9). -/
def decodeGroup0 (w : Word) : Decoded :=
  if w = 0x00E0 then .instr .cls
  else if w = 0x00EE then .instr .ret
  else .unrecognized .group0

/-- Group 8: the sub-operation is `n` (R75). -/
def decodeGroup8 (w : Word) : Decoded :=
  match (nOf w).val with
  | 0x0 => .instr (.ldVxVy (xOf w) (yOf w))
  | 0x1 => .instr (.orVxVy (xOf w) (yOf w))
  | 0x2 => .instr (.andVxVy (xOf w) (yOf w))
  | 0x3 => .instr (.xorVxVy (xOf w) (yOf w))
  | 0x4 => .instr (.addVxVy (xOf w) (yOf w))
  | 0x5 => .instr (.subVxVy (xOf w) (yOf w))
  | 0x6 => .instr (.shrVx (xOf w) (yOf w))
  | 0x7 => .instr (.subnVxVy (xOf w) (yOf w))
  | 0xE => .instr (.shlVx (xOf w) (yOf w))
  | _   => .unrecognized .group8

/-- Group E: the sub-operation is `kk` (R75). -/
def decodeGroupE (w : Word) : Decoded :=
  match (kkOf w).toNat with
  | 0x9E => .instr (.skpVx (xOf w))
  | 0xA1 => .instr (.sknpVx (xOf w))
  | _    => .unrecognized .groupE

/-- Group F: the sub-operation is `kk` (R75). -/
def decodeGroupF (w : Word) : Decoded :=
  match (kkOf w).toNat with
  | 0x07 => .instr (.ldVxDT (xOf w))
  | 0x0A => .instr (.ldVxK (xOf w))
  | 0x15 => .instr (.ldDTVx (xOf w))
  | 0x18 => .instr (.ldSTVx (xOf w))
  | 0x1E => .instr (.addIVx (xOf w))
  | 0x29 => .instr (.ldFVx (xOf w))
  | 0x33 => .instr (.ldBVx (xOf w))
  | 0x55 => .instr (.ldMemVx (xOf w))
  | 0x65 => .instr (.ldVxMem (xOf w))
  | _    => .unrecognized .groupF

/-- Groups 5 and 9: the low nibble is examined only under `require_n0` (R75). -/
def decodeXYN (p : Config.Params) (w : Word) (i : Fin 16 → Fin 16 → Fin 16 → Instr) (why : Unrecognized) :
    Decoded :=
  if p.decode59 = .ignoreN ∨ nOf w = 0 then .instr (i (xOf w) (yOf w) (nOf w)) else .unrecognized why

/-- Group B (R75, R127). -/
def decodeGroupB (p : Config.Params) (w : Word) : Decoded :=
  match p.bnnnMode with
  | .jumpV0       => .instr (.jpV0Addr (nnnOf w))
  | .unrecognized => .unrecognized .groupB

/-- `Decode(w)`: "a pure total function from a 16-bit word to an operation" (R75). The last arm is `op = 0xF`, the one value left. -/
def decode (p : Config.Params) (w : Word) : Decoded :=
  match (opOf w).val with
  | 0x0 => decodeGroup0 w
  | 0x1 => .instr (.jpAddr (nnnOf w))
  | 0x2 => .instr (.callAddr (nnnOf w))
  | 0x3 => .instr (.seVxByte (xOf w) (kkOf w))
  | 0x4 => .instr (.sneVxByte (xOf w) (kkOf w))
  | 0x5 => decodeXYN p w .seVxVy .group5
  | 0x6 => .instr (.ldVxByte (xOf w) (kkOf w))
  | 0x7 => .instr (.addVxByte (xOf w) (kkOf w))
  | 0x8 => decodeGroup8 w
  | 0x9 => decodeXYN p w .sneVxVy .group9
  | 0xA => .instr (.ldIAddr (nnnOf w))
  | 0xB => decodeGroupB p w
  | 0xC => .instr (.rndVxByte (xOf w) (kkOf w))
  | 0xD => .instr (.drw (xOf w) (yOf w) (nOf w))
  | 0xE => decodeGroupE w
  | _   => decodeGroupF w

/-! ### Encoding (the formats of R73, the patterns of R74) -/

/-- Format `NNN`: `oooo nnnn nnnn nnnn`. -/
def wordNNN (op : Nat) (nnn : BitVec 12) : Word := BitVec.ofNat 16 (op * 0x1000 + nnn.toNat)

/-- Formats `XKK` and `X`: `oooo xxxx kkkk kkkk`, `kk` an immediate or a fixed sub-operation. -/
def wordXKK (op : Nat) (x : Fin 16) (kk : Byte) : Word := BitVec.ofNat 16 (op * 0x1000 + x.val * 0x100 + kk.toNat)

/-- Formats `XY` and `XYN`: `oooo xxxx yyyy nnnn`, `n` an immediate, a fixed sub-operation or ignored. -/
def wordXYN (op : Nat) (x y n : Fin 16) : Word :=
  BitVec.ofNat 16 (op * 0x1000 + x.val * 0x100 + y.val * 0x10 + n.val)

/-- The word of an instruction (R74, log 10). -/
def encode : Instr → Word
  | .cls            => 0x00E0
  | .ret            => 0x00EE
  | .jpAddr nnn     => wordNNN 0x1 nnn
  | .callAddr nnn   => wordNNN 0x2 nnn
  | .seVxByte x kk  => wordXKK 0x3 x kk
  | .sneVxByte x kk => wordXKK 0x4 x kk
  | .seVxVy x y n   => wordXYN 0x5 x y n
  | .ldVxByte x kk  => wordXKK 0x6 x kk
  | .addVxByte x kk => wordXKK 0x7 x kk
  | .ldVxVy x y     => wordXYN 0x8 x y 0x0
  | .orVxVy x y     => wordXYN 0x8 x y 0x1
  | .andVxVy x y    => wordXYN 0x8 x y 0x2
  | .xorVxVy x y    => wordXYN 0x8 x y 0x3
  | .addVxVy x y    => wordXYN 0x8 x y 0x4
  | .subVxVy x y    => wordXYN 0x8 x y 0x5
  | .shrVx x y      => wordXYN 0x8 x y 0x6
  | .subnVxVy x y   => wordXYN 0x8 x y 0x7
  | .shlVx x y      => wordXYN 0x8 x y 0xE
  | .sneVxVy x y n  => wordXYN 0x9 x y n
  | .ldIAddr nnn    => wordNNN 0xA nnn
  | .jpV0Addr nnn   => wordNNN 0xB nnn
  | .rndVxByte x kk => wordXKK 0xC x kk
  | .drw x y n      => wordXYN 0xD x y n
  | .skpVx x        => wordXKK 0xE x 0x9E
  | .sknpVx x       => wordXKK 0xE x 0xA1
  | .ldVxDT x       => wordXKK 0xF x 0x07
  | .ldVxK x        => wordXKK 0xF x 0x0A
  | .ldDTVx x       => wordXKK 0xF x 0x15
  | .ldSTVx x       => wordXKK 0xF x 0x18
  | .addIVx x       => wordXKK 0xF x 0x1E
  | .ldFVx x        => wordXKK 0xF x 0x29
  | .ldBVx x        => wordXKK 0xF x 0x33
  | .ldMemVx x      => wordXKK 0xF x 0x55
  | .ldVxMem x      => wordXKK 0xF x 0x65

/-! ### Byte order (R56) -/

/-- `w = mem[pc] * 256 + mem[pc+1]` (R56, R101). -/
def wordOfBytes (hi lo : Byte) : Word := BitVec.ofNat 16 (hi.toNat * 256 + lo.toNat)

/-- The byte of a word that lies at the lower address (R56). -/
def highByte (w : Word) : Byte := BitVec.ofNat 8 (bits w 15 8)

/-- The byte of a word that lies at the higher address (R56). -/
def lowByte (w : Word) : Byte := BitVec.ofNat 8 (bits w 7 0)

/-! ### The opcode table's words -/

/-- The word that `nbits` bits numbered as the opcode table numbers them make; bits above `nbits` are 0. -/
def tableWord (nbits w : Nat) : Word := BitVec.ofNat 16 (w % 2 ^ nbits)

/-- Is the word one of the row `Bnnn`, an instruction only under `BNNN_MODE = jump_v0` (R127)? -/
def isBnnn (w : Word) : Bool := opOf w = 0xB

/-- The parameters under which the opcode table's row of this word exists: `p` itself, but with `BNNN_MODE = jump_v0` for the row `Bnnn` (DESIGN CHOICE, log 3). -/
def rowParams (p : Config.Params) (w : Word) : Config.Params :=
  if isBnnn w then { p with bnnnMode := .jumpV0 } else p

/-- The instruction the decoder reads from an opcode-table word, laid out in its two bytes (log 3 for `Bnnn`). -/
def decodeTableWord (nbits w : Nat) : Option Instr :=
  let word := wordOfBytes (highByte (tableWord nbits w)) (lowByte (tableWord nbits w))
  match decode (rowParams Machine.defaultParams word) word with
  | .instr i        => some i
  | .unrecognized _ => none

end Sys2Proof
end

