-- ==== Sys2Proof/Machine/State.lean ====
section
/-! DEFINITION. The machine's state as plain data (R20 to R32), the reasons a step stops (R231), the reports (R232), and the state at creation (R34). -/

namespace Sys2Proof.Machine

/-- The reason of a fatal fault, with the value it records (R231). -/
inductive HaltReason where
  /-- The fetch failed at this `pc` (R102). -/
  | fetchOutOfBounds (pc : Addr)
  /-- The lowest out-of-range address the instruction would access; an unbounded integer (R53). -/
  | memOutOfBounds (a : Nat)
  /-- The key index, 16..255 (R216). -/
  | keyIndexOutOfRange (k : Byte)
  deriving DecidableEq, Repr

/-- `Running` or `Halted(reason)` (R32). -/
inductive Status where
  | running
  | halted (r : HaltReason)
  deriving DecidableEq, Repr

/-- Why a step stops. -/
inductive Fault where
  /-- The step raised a fatal fault (R231): the fetch, `DRW`, `LD B, Vx`, `LD [I], Vx`, `LD Vx, [I]`, `SKP` and `SKNP` raise it. Safe: the spec names the fault and leaves the contents after it unspecified (log 6). -/
  | fatal (r : HaltReason)
  /-- The machine was halted before the step, so there is no transition (R234); the step itself raises it. Safe (log 7). -/
  | halted (r : HaltReason)
  deriving DecidableEq, Repr

/-- Why the model gives an instruction no meaning. -/
inductive Refusal where
  /-- An instruction without a meaning, by its mnemonic; exec's refused arms would raise it, and there is none. Safe. -/
  | notModelled (mnemonic : String)
  deriving DecidableEq, Repr

/-- A recoverable fault's event, "an output of the step" (R232). -/
inductive Report where
  /-- `RET` with `sp = 0` (R120). -/
  | stackUnderflow (pc : Addr)
  /-- `CALL` with `sp = 16` (R122). -/
  | stackOverflow (pc : Addr)
  /-- An unrecognized word (R105). -/
  | unknownOpcode (pc : Addr) (w : Word)
  deriving DecidableEq, Repr

/-- The memory array's nonzero bytes, addresses strictly rising; an unlisted address reads `0x00` (R30, R34, log 9). -/
abbrev Memory := List Host.Cell

/-- The framebuffer: 32 rows of 64 cells, `true` lit (R29). -/
abbrev Framebuffer := Vector (Vector Bool 64) 32

/-- The whole state: the elements of R20, then the model's own three fields. -/
structure State where
  /-- `V[0..15]` (R21). -/
  V       : Vector Byte 16
  /-- The index register (R23). -/
  I       : Addr
  /-- The program counter (R24). -/
  pc      : Addr
  /-- The call stack's 16 entries (R25). -/
  stack   : Vector Addr 16
  /-- How many stack entries are in use, 0..16 (R25, log 13). -/
  sp      : Fin 17
  /-- The delay timer (R26). -/
  DT      : Byte
  /-- The sound timer (R27). -/
  ST      : Byte
  /-- The keypad, `true` pressed (R28). -/
  key     : Vector Bool 16
  /-- The framebuffer (R29). -/
  FB      : Framebuffer
  /-- The memory array (R30). -/
  mem     : Memory
  /-- The tone-active output (R31). -/
  tone    : Bool
  /-- Running or halted (R32). -/
  status  : Status
  /-- The model's own: the configuration of R5; nothing writes it (log 1). -/
  params  : Config.Params
  /-- The model's own: how many random draws were taken (R9, log 5). -/
  draws   : Nat
  /-- The model's own: the report list of the step just completed, an output (R100, R232, log 4). -/
  reports : List Report
  deriving DecidableEq, Repr

/-- The creation state of R34, with the default parameters (log 2) and no font (R272). -/
def State.reset : State where
  V       := Vector.replicate 16 0
  I       := 0
  pc      := BitVec.ofNat 16 Config.progStart
  stack   := Vector.replicate 16 0
  sp      := 0
  DT      := 0
  ST      := 0
  key     := Vector.replicate 16 false
  FB      := Vector.replicate 32 (Vector.replicate 64 false)
  mem     := []
  tone    := false
  status  := .running
  params  := defaultParams
  draws   := 0
  reports := []

end Sys2Proof.Machine
end

