-- ==== Sys2Proof/Machine/Ops.lean ====
section
/-! DEFINITION. The named operations over memory, registers, stack, framebuffer and outputs that every meaning is written with; fetch; and the two kinds of fault: `raise` (R231) and `State.addReport` (R232). The spec has no exception entry and no return from one (R236, R237), so these two stand in their place. -/

namespace Sys2Proof.Machine

/-- The outcome of a step (R100). -/
abbrev Result := Host.Outcome State Fault Refusal

/-- `raise Fatal(reason)` (R11, R231): the step ends; what else it did is unspecified (R66, log 6). -/
def raise (r : HaltReason) : Result := .fault (.fatal r)

/-! ### Memory (R50 to R56) -/

/-- What an address holds that nothing has written: the creation value (R34, log 9). -/
def Memory.unlisted : Byte := 0x00

/-- The byte at an address. -/
def Memory.read : Memory → Nat → Byte
  | [], _ => Memory.unlisted
  | c :: m, a => if c.1 = a then c.2 else Memory.read m a

/-- Drop whatever is listed at an address. -/
def Memory.erase (m : Memory) (a : Nat) : Memory := m.filter (fun c => c.1 ≠ a)

/-- Put a cell before the first cell of a higher address. -/
def Memory.insert : Memory → Nat → Byte → Memory
  | [], a, v => [(a, v)]
  | c :: m, a, v => if a < c.1 then (a, v) :: c :: m else c :: Memory.insert m a v

/-- Write one byte, keeping the canonical form. -/
def Memory.write (m : Memory) (a : Nat) (v : Byte) : Memory :=
  if v = Memory.unlisted then m.erase a else (m.erase a).insert a v

/-- Write consecutive bytes upwards from an address (R54). -/
def Memory.writeBytes : Memory → Nat → List Byte → Memory
  | m, _, [] => m
  | m, a, b :: bs => Memory.writeBytes (m.write a b) (a + 1) bs

/-- The canonical form: addresses strictly rising, no entry equal to what an unlisted address reads as. -/
def Memory.wf : Memory → Bool
  | [] => true
  | c :: m => c.2 ≠ Memory.unlisted && m.all (fun d => c.1 < d.1) && Memory.wf m

/-- `MEM_SIZE` (R50). -/
def State.memSize (s : State) : Nat := s.params.memSize.bytes

/-- `MemRead(a, 1)` at an address the caller has checked (R11, R54). -/
def State.readByte (s : State) (a : Nat) : Byte := Memory.read s.mem a

/-- The bytes at `a, a+1, …, a+n-1` (R54). -/
def State.readBytes (s : State) : Nat → Nat → List Byte
  | _, 0 => []
  | a, n + 1 => s.readByte a :: s.readBytes (a + 1) n

/-- `MemWrite` of consecutive bytes at addresses the caller has checked (R11, R54). -/
def State.storeBytes (s : State) (a : Nat) (bs : List Byte) : State := { s with mem := Memory.writeBytes s.mem a bs }

/-- The first address `a` in `base .. base+len-1` with `a >= MEM_SIZE` (R53, R173 to R175, R191), none if all are memory. -/
def State.firstOutOfRange (s : State) (base len : Nat) : Option Nat :=
  (List.range' base len).find? (fun a => s.memSize ≤ a)

/-- Go on only if `base .. base+len-1` are all memory; else the fatal fault of R53, with the lowest address out of range (R231). -/
def State.ifInRange (s : State) (base len : Nat) (go : Result) : Result :=
  match s.firstOutOfRange base len with
  | none   => go
  | some a => raise (.memOutOfBounds a)

/-! ### Registers -/

/-- Read `V[x]` (R21). -/
def State.reg (s : State) (x : Reg) : Byte := s.V[x]

/-- Write `V[x]` (R21). -/
def State.setReg (s : State) (x : Reg) (v : Byte) : State := { s with V := s.V.set x v }

/-- Write `I` (R23). -/
def State.setI (s : State) (v : Addr) : State := { s with I := v }

/-- Write `DT` (R26). -/
def State.setDT (s : State) (v : Byte) : State := { s with DT := v }

/-- Write `ST` (R27). -/
def State.setST (s : State) (v : Byte) : State := { s with ST := v }

/-- Write `pc` (R24). -/
def State.setPc (s : State) (v : Addr) : State := { s with pc := v }

/-- The default advance: `pc <- pc + 2`, modulo 65536 (R24, R104). -/
def State.advance (s : State) : State := s.setPc (s.pc + 2)

/-- A skip: "net +4 on skip, +2 otherwise" (R104, R123). -/
def State.skipIf (s : State) (taken : Bool) : State := s.setPc (if taken then s.pc + 4 else s.pc + 2)

/-! ### Stack (R25) -/

/-- `stack[sp] <- v; sp <- sp + 1` (R122); the caller has checked `sp < 16`. -/
def State.push (s : State) (v : Addr) : State :=
  { s with stack := s.stack.setIfInBounds s.sp.val v, sp := ⟨min (s.sp.val + 1) 16, by omega⟩ }

/-- `sp <- sp - 1; pc <- stack[sp]` (R120); the caller has checked `sp > 0`. The entry keeps its value (R25). -/
def State.popPc (s : State) : State :=
  { s with sp := ⟨s.sp.val - 1, by omega⟩, pc := s.stack[s.sp.val - 1] }

/-! ### Framebuffer (R29) -/

/-- `FB[py][px]` (R11). -/
def Framebuffer.cell (fb : Framebuffer) (px : Fin 64) (py : Fin 32) : Bool := fb[py][px]

/-- `FB[py][px] <- b` (R11). -/
def Framebuffer.setCell (fb : Framebuffer) (px : Fin 64) (py : Fin 32) (b : Bool) : Framebuffer :=
  fb.set py (fb[py].set px b)

/-- Every cell unlit (R190). -/
def Framebuffer.blank : Framebuffer := Vector.replicate 32 (Vector.replicate 64 false)

/-- Replace the picture. -/
def State.setFB (s : State) (fb : Framebuffer) : State := { s with FB := fb }

/-! ### Keypad (R28) -/

/-- `exists k` pressed: `min { k | key[k] == true }` (R212). -/
def State.lowestPressed (s : State) : Option Reg := (List.finRange 16).find? (fun k => s.key[k])

/-! ### Inputs and outputs of a step -/

/-- `draw_rnd()` (R9): the free byte of this draw. -/
def State.drawRnd (s : State) : Byte := Config.freeDraw s.draws

/-- One more draw was taken (log 5). -/
def State.nextDraw (s : State) : State := { s with draws := s.draws + 1 }

/-- `report(event)`: append an event to the step's report list (R11, R232). -/
def State.addReport (s : State) (r : Report) : State := { s with reports := s.reports ++ [r] }

/-- A step begins with an empty report list (R100, log 4). -/
def State.beginStep (s : State) : State := { s with reports := [] }

/-! ### Fetch -/

/-- Fetch (R101, R102): the big-endian word at `pc`, or none where `pc + 1 >= MEM_SIZE`. -/
def State.fetch (s : State) : Option Word :=
  if s.pc.toNat + 1 ≥ s.memSize then none
  else some (wordOfBytes (s.readByte s.pc.toNat) (s.readByte (s.pc.toNat + 1)))

end Sys2Proof.Machine
end

