-- ==== Sys2Proof/Machine/Operands.lean ====
section
/-! DEFINITION. The operand forms (R72, R176): immediates, addresses, register lists and the index-relative effective address. -/

namespace Sys2Proof.Machine

/-- `zext_16(nnn)`: a 12-bit address zero-extended to 16 bits (R72). -/
def addrOf (nnn : BitVec 12) : Addr := nnn.zeroExtend 16

/-- `zext_16(v)` of a byte (R11). -/
def zext16 (v : Byte) : Addr := v.zeroExtend 16

/-- The effective address of byte `j`: `I + j` as an unbounded integer (R53, R176). -/
def State.effAddr (s : State) (j : Nat) : Nat := s.I.toNat + j

/-- `V[0], …, V[x]`: the `x + 1` registers `LD [I], Vx` moves (R72, R174). -/
def State.regsThrough (s : State) (x : Reg) : List Byte := s.V.toList.take (x.val + 1)

/-- Load `V[0], …, V[n-1]` from consecutive bytes at `base`, lowest register first (R175). -/
def State.loadRegs (s : State) (base : Nat) : Nat → State
  | 0 => s
  | n + 1 => (s.loadRegs base n).setReg (Fin.ofNat 16 n) (s.readByte (base + n))

/-- The hundreds, tens and ones digits of a byte (R173). -/
def bcdDigits (v : Byte) : List Byte :=
  [BitVec.ofNat 8 (v.toNat / 100), BitVec.ofNat 8 (v.toNat / 10 % 10), BitVec.ofNat 8 (v.toNat % 10)]

/-- The glyph address of a digit: `zext_16(V[x]) * 5` (R172). -/
def glyphAddr (v : Byte) : Addr := zext16 v * 5

/-- `V[x]` as a key index (R216): none for 16..255. -/
def keyIndex (v : Byte) : Option (Fin 16) := if h : v.toNat < 16 then some ⟨v.toNat, h⟩ else none

/-- The column of pixel offset `c`: `(cx + c) mod 64` (R191). -/
def pixelColumn (cx : Byte) (c : Nat) : Fin 64 := Fin.ofNat 64 (cx.toNat + c)

/-- The row of sprite row `r`: `(cy + r) mod 32` (R191). -/
def pixelRow (cy : Byte) (r : Nat) : Fin 32 := Fin.ofNat 32 (cy.toNat + r)

/-- The sprite bit at column offset `c` of a row byte: bit 7 is the leftmost pixel (R193, log 10). -/
def spriteBit (row : Byte) (c : Nat) : Bool := row.toNat / 2 ^ (7 - c) % 2 = 1

end Sys2Proof.Machine
end

