-- ==== Sys2Proof/Machine/Flags.lean ====
section
/-! DEFINITION. Every flag computation of the spec (R146 to R151, R192) and the order in which result and flag are written. -/

namespace Sys2Proof.Machine

/-- A flag value: 1 or 0. -/
def flag (b : Bool) : Byte := if b then 1 else 0

/-- Carry of `ADD Vx, Vy`: 1 "on unsigned overflow else 0" (R147). -/
def carryFlag (a b : Byte) : Byte := flag (a.toNat + b.toNat > 255)

/-- Not-borrow of `a - b`: 1 if `a >= b` (R148; R150 with the operands reversed). -/
def notBorrowFlag (a b : Byte) : Byte := flag (a.toNat ≥ b.toNat)

/-- `SHR`: `V[x] & 1` (R149). -/
def shrFlag (v : Byte) : Byte := v &&& 1

/-- `ShlFlag` (R151), per the parameter `SHL_FLAG`. -/
def shlFlag (m : Config.ShlFlag) (v : Byte) : Byte :=
  match m with
  | .bit3    => (v >>> 3) &&& 1
  | .bit3Raw => v &&& 0x08
  | .bit7    => (v >>> 7) &&& 1

/-- The two writes of `ADD`, `SUB` and `SUBN`, in the order of `ARITH_FLAG_ORDER` (R146). -/
def State.writeResultAndFlag (s : State) (x : Reg) (result flg : Byte) : State :=
  match s.params.arithFlagOrder with
  | .flagLast   => (s.setReg x result).setReg VF flg
  | .resultLast => (s.setReg VF flg).setReg x result

end Sys2Proof.Machine
end

