-- ==== Sys2Proof/Machine/Alu.lean ====
section
/-! DEFINITION. Register loads, arithmetic and logic (42_alu.md). -/

namespace Sys2Proof.Machine

/-- `LD Vx, byte` (R140). -/
def execLdVxByte (x : Reg) (kk : Byte) (s : State) : Result := .next (s.setReg x kk).advance

/-- `ADD Vx, byte` (R141): no flag. -/
def execAddVxByte (x : Reg) (kk : Byte) (s : State) : Result := .next (s.setReg x (s.reg x + kk)).advance

/-- `LD Vx, Vy` (R142). -/
def execLdVxVy (x y : Reg) (s : State) : Result := .next (s.setReg x (s.reg y)).advance

/-- `OR Vx, Vy` (R143). -/
def execOrVxVy (x y : Reg) (s : State) : Result := .next (s.setReg x (s.reg x ||| s.reg y)).advance

/-- `AND Vx, Vy` (R144). -/
def execAndVxVy (x y : Reg) (s : State) : Result := .next (s.setReg x (s.reg x &&& s.reg y)).advance

/-- `XOR Vx, Vy` (R145). -/
def execXorVxVy (x y : Reg) (s : State) : Result := .next (s.setReg x (s.reg x ^^^ s.reg y)).advance

/-- `ADD Vx, Vy` (R147). -/
def execAddVxVy (x y : Reg) (s : State) : Result :=
  .next (s.writeResultAndFlag x (s.reg x + s.reg y) (carryFlag (s.reg x) (s.reg y))).advance

/-- `SUB Vx, Vy` (R148). -/
def execSubVxVy (x y : Reg) (s : State) : Result :=
  .next (s.writeResultAndFlag x (s.reg x - s.reg y) (notBorrowFlag (s.reg x) (s.reg y))).advance

/-- `SHR Vx` (R149): `y` is ignored; the flag is written first, then `V[x]` is read again and shifted. -/
def execShrVx (x _y : Reg) (s : State) : Result :=
  let s₁ := s.setReg VF (shrFlag (s.reg x))
  .next (s₁.setReg x (s₁.reg x >>> 1)).advance

/-- `SUBN Vx, Vy` (R150). -/
def execSubnVxVy (x y : Reg) (s : State) : Result :=
  .next (s.writeResultAndFlag x (s.reg y - s.reg x) (notBorrowFlag (s.reg y) (s.reg x))).advance

/-- `SHL Vx` (R151): `y` is ignored; the flag is written first, then `V[x]` is read again and shifted. -/
def execShlVx (x _y : Reg) (s : State) : Result :=
  let s₁ := s.setReg VF (shlFlag s.params.shlFlag (s.reg x))
  .next (s₁.setReg x (s₁.reg x <<< 1)).advance

/-- `RND Vx, byte` (R160): one free draw. -/
def execRndVxByte (x : Reg) (kk : Byte) (s : State) : Result :=
  .next (s.nextDraw.setReg x (s.drawRnd &&& kk)).advance

end Sys2Proof.Machine
end

