-- ==== Sys2Proof/Machine/Control.lean ====
section
/-! DEFINITION. Control flow (41_control.md): return, jump, call, the register skips, `JP V0, addr`; and the unrecognized word (R105). -/

namespace Sys2Proof.Machine

/-- `RET` (R120). -/
def execRet (s : State) : Result :=
  if 0 < s.sp.val then .next s.popPc
  else .next (s.addReport (.stackUnderflow s.pc))

/-- `JP addr` (R121). -/
def execJpAddr (nnn : BitVec 12) (s : State) : Result := .next (s.setPc (addrOf nnn))

/-- `CALL addr` (R122); the pushed value is `pc + 2` (C3), the overflow case per `CALL_OVERFLOW_PC`. -/
def execCallAddr (nnn : BitVec 12) (s : State) : Result :=
  if s.sp.val < 16 then .next ((s.push (s.pc + 2)).setPc (addrOf nnn))
  else
    match s.params.callOverflowPc with
    | .advance => .next (s.addReport (.stackOverflow s.pc)).advance
    | .hold    => .next (s.addReport (.stackOverflow s.pc))

/-- `SE Vx, byte` (R123). -/
def execSeVxByte (x : Reg) (kk : Byte) (s : State) : Result := .next (s.skipIf (s.reg x = kk))

/-- `SNE Vx, byte` (R124). -/
def execSneVxByte (x : Reg) (kk : Byte) (s : State) : Result := .next (s.skipIf (s.reg x ≠ kk))

/-- `SE Vx, Vy` (R125); the low nibble has no effect. -/
def execSeVxVy (x y _n : Fin 16) (s : State) : Result := .next (s.skipIf (s.reg x = s.reg y))

/-- `SNE Vx, Vy` (R126); the low nibble has no effect. -/
def execSneVxVy (x y _n : Fin 16) (s : State) : Result := .next (s.skipIf (s.reg x ≠ s.reg y))

/-- `JP V0, addr` (R127). The decoder yields it only under `BNNN_MODE = jump_v0` (log 12). -/
def execJpV0Addr (nnn : BitVec 12) (s : State) : Result := .next (s.setPc (addrOf nnn + zext16 (s.reg 0)))

/-- An unrecognized word (R105): one report and the default advance. -/
def execUnrecognized (w : Word) (s : State) : Result := .next (s.addReport (.unknownOpcode s.pc w)).advance

end Sys2Proof.Machine
end

