-- ==== Sys2Proof/Machine/Display.lean ====
section
/-! DEFINITION. Framebuffer instructions (44_display.md). -/

namespace Sys2Proof.Machine

/-- A draw in progress: the picture, and whether a lit cell has been unset (R192). -/
structure Drawing where
  fb  : Framebuffer
  hit : Bool
  deriving DecidableEq, Repr

/-- One pixel of a draw (R191): a 1 bit inverts its cell, and is a collision if the cell was lit. -/
def drawPixel (px : Fin 64) (py : Fin 32) (bit : Bool) (d : Drawing) : Drawing :=
  if bit then { fb := d.fb.setCell px py (!d.fb.cell px py), hit := d.hit || d.fb.cell px py } else d

/-- One sprite row: `for c in 0 .. 7` (R191). -/
def drawRow (cx : Byte) (py : Fin 32) (row : Byte) (d : Drawing) : Drawing :=
  (List.range 8).foldl (fun d c => drawPixel (pixelColumn cx c) py (spriteBit row c) d) d

/-- The sprite's rows from row `r` on: `for r in 0 .. n-1` (R191). -/
def drawRows (cx cy : Byte) : Nat → List Byte → Drawing → Drawing
  | _, [], d => d
  | r, row :: rows, d => drawRows cx cy (r + 1) rows (drawRow cx (pixelRow cy r) row d)

/-- `CLS` (R190). -/
def execCls (s : State) : Result := .next (s.setFB Framebuffer.blank).advance

/-- `DRW Vx, Vy, nibble` (R191, R192): coordinates are read before `VF` is cleared; `VF` starts at 0 and is set by a collision. -/
def execDrw (x y n : Fin 16) (s : State) : Result :=
  s.ifInRange (s.effAddr 0) n.val
    (let d := drawRows (s.reg x) (s.reg y) 0 (s.readBytes (s.effAddr 0) n.val) { fb := s.FB, hit := false }
     .next ((s.setFB d.fb).setReg VF (flag d.hit)).advance)

end Sys2Proof.Machine
end

