-- ==== Sys2Proof/Machine/IndexMemory.lean ====
section
/-! DEFINITION. Index register and memory instructions (43_index_memory.md). -/

namespace Sys2Proof.Machine

/-- `LD I, addr` (R170). -/
def execLdIAddr (nnn : BitVec 12) (s : State) : Result := .next (s.setI (addrOf nnn)).advance

/-- `ADD I, Vx` (R171): modulo 65536, no flag. -/
def execAddIVx (x : Reg) (s : State) : Result := .next (s.setI (s.I + zext16 (s.reg x))).advance

/-- `LD F, Vx` (R172): no memory is accessed. -/
def execLdFVx (x : Reg) (s : State) : Result := .next (s.setI (glyphAddr (s.reg x))).advance

/-- `LD B, Vx` (R173). -/
def execLdBVx (x : Reg) (s : State) : Result :=
  s.ifInRange (s.effAddr 0) 3 (.next (s.storeBytes (s.effAddr 0) (bcdDigits (s.reg x))).advance)

/-- `LD [I], Vx` (R174). -/
def execLdMemVx (x : Reg) (s : State) : Result :=
  s.ifInRange (s.effAddr 0) (x.val + 1) (.next (s.storeBytes (s.effAddr 0) (s.regsThrough x)).advance)

/-- `LD Vx, [I]` (R175). -/
def execLdVxMem (x : Reg) (s : State) : Result :=
  s.ifInRange (s.effAddr 0) (x.val + 1) (.next (s.loadRegs (s.effAddr 0) (x.val + 1)).advance)

end Sys2Proof.Machine
end

