-- ==== Sys2Proof/Machine/KeypadTimers.lean ====
section
/-! DEFINITION. Keypad and timer instructions (45_keypad_timers.md). -/

namespace Sys2Proof.Machine

/-- The shared form of the key skips (R210, R211, R216): skip when the key's state is `pressed`; an index above 15 is fatal. -/
def State.skipOnKey (s : State) (x : Reg) (pressed : Bool) : Result :=
  match keyIndex (s.reg x) with
  | none   => raise (.keyIndexOutOfRange (s.reg x))
  | some k => .next (s.skipIf (s.key[k] = pressed))

/-- `SKP Vx` (R210). -/
def execSkpVx (x : Reg) (s : State) : Result := s.skipOnKey x true

/-- `SKNP Vx` (R211). -/
def execSknpVx (x : Reg) (s : State) : Result := s.skipOnKey x false

/-- `LD Vx, K` (R212): the lowest pressed key, or no change at all while none is pressed. -/
def execLdVxK (x : Reg) (s : State) : Result :=
  match s.lowestPressed with
  | some k => .next (s.setReg x (BitVec.ofNat 8 k.val)).advance
  | none   => .next s

/-- `LD Vx, DT` (R213). -/
def execLdVxDT (x : Reg) (s : State) : Result := .next (s.setReg x s.DT).advance

/-- `LD DT, Vx` (R214). -/
def execLdDTVx (x : Reg) (s : State) : Result := .next (s.setDT (s.reg x)).advance

/-- `LD ST, Vx` (R215): `tone` is not written. -/
def execLdSTVx (x : Reg) (s : State) : Result := .next (s.setST (s.reg x)).advance

end Sys2Proof.Machine
end

