-- ==== Sys2Proof/Machine/Step.lean ====
section
/-! DEFINITION. One `Step` (R100), and the placing of an instruction word where the next step fetches it. -/

namespace Sys2Proof.Machine

/-- `Step` (R100): nothing on a halted machine (R234); else fetch (R101, R102), decode (R75), and execute (R103) with an empty report list. -/
def step (s : State) : Host.Outcome State Fault Refusal :=
  match s.status with
  | .halted r => .fault (.halted r)
  | .running =>
    match s.fetch with
    | none => raise (.fetchOutOfBounds s.pc)
    | some w =>
      match decode s.params w with
      | .instr i        => exec i s.beginStep
      | .unrecognized _ => execUnrecognized w s.beginStep

/-- The state with an opcode-table word stored, high byte first, at `pc` (R56), and, for a word of the row `Bnnn`, with the `BNNN_MODE` under which that row is an instruction (log 3). -/
def State.withFetchWord (s : State) (nbits w : Nat) : State :=
  let word := tableWord nbits w
  { s.storeBytes s.pc.toNat [highByte word, lowByte word] with params := rowParams s.params word }

end Sys2Proof.Machine
end

