-- ==== Sys2Proof/Machine/Transactions.lean ====
section
/-! DEFINITION. The host's transactions (R8) other than `Step`, all of them as one function, and creation with a platform's parameters (R34, R272). -/

namespace Sys2Proof.Machine

/-- Creation (R34, R270) with the parameters `p`: the creation state, with the font's bytes from address 0 (R272), which are at most 0x200 (log 15). -/
def State.create (p : Config.Params) : State :=
  { State.reset with
    params := p
    mem    := Memory.writeBytes [] 0 (p.fontPreload.take Config.progStart) }

/-- One tick's change of a timer: "decremented by 1, floored at 0" (R250). -/
def countDown (t : Byte) : Byte := if t.toNat > 0 then t - 1 else t

/-- The body of `Tick` (R250, R252): `tone` from `ST` before the decrement. -/
def State.tick (s : State) : State :=
  { s with tone := s.ST ≠ 0, DT := countDown s.DT, ST := countDown s.ST }

/-- The 16 key states packed in a value: bit `j` is key `j` (R256). -/
def keysOf (k : BitVec 16) : Vector Bool 16 :=
  #v[k.getLsbD 0, k.getLsbD 1, k.getLsbD 2, k.getLsbD 3, k.getLsbD 4, k.getLsbD 5, k.getLsbD 6, k.getLsbD 7,
     k.getLsbD 8, k.getLsbD 9, k.getLsbD 10, k.getLsbD 11, k.getLsbD 12, k.getLsbD 13, k.getLsbD 14, k.getLsbD 15]

/-- The body of `SetKeys(k)` (R256). -/
def State.setKeys (s : State) (k : BitVec 16) : State := { s with key := keysOf k }

/-- Does the image fit: `PROG_START + len(b) <= MEM_SIZE` (R276)? -/
def State.imageFits (s : State) (image : List Byte) : Bool := Config.progStart + image.length ≤ s.memSize

/-- The body of `LoadImage(b)` for an image that fits (R276). -/
def State.load (s : State) (image : List Byte) : State := s.storeBytes Config.progStart image

/-- The contents after a fatal fault: halted for good, the configuration kept, everything else the unspecified `free` (R231, R234; log 6). -/
def State.halt (s free : State) (r : HaltReason) : State := { free with status := .halted r, params := s.params }

/-- The entry points of R8, and the host's read of the keypad (R256; "keypad read/write", R7), which R8's table does not list (log 16). -/
inductive Transaction where
  | step
  | tick
  | loadImage (image : List Byte)
  | setKeys (k : BitVec 16)
  | readFramebuffer
  | readTone
  | readKeys
  deriving DecidableEq, Repr

/-- What a transaction gives back (R257). -/
inductive Reply where
  /-- `Ok(reports)` of a step (R100). -/
  | stepped (reports : List Report)
  /-- `Fatal(reason)` of a step (R231). -/
  | fatal (r : HaltReason)
  /-- `Tick` and `SetKeys` give nothing back. -/
  | nothing
  /-- `Ok` of `LoadImage` (R276). -/
  | loaded
  /-- `ImageTooLarge` (R277). -/
  | imageTooLarge
  /-- `ReadFramebuffer` (R255). -/
  | framebuffer (fb : Framebuffer)
  /-- `ReadTone` (R252). -/
  | tone (active : Bool)
  /-- The 16 key slots, read back (R256, log 16). -/
  | keys (key : Vector Bool 16)
  deriving DecidableEq, Repr

/-- The `Step` transaction: the step's outcome with its reports, or the halt. -/
def stepTransaction (free s : State) : Option (State × Reply) :=
  match step s with
  | .next t            => some (t, .stepped t.reports)
  | .fault (.fatal r)  => some (s.halt free r, .fatal r)
  | .fault (.halted _) => none
  | .refused _         => none

/-- One transaction (R8, and the read of R256): the next state and the reply, or none where a halted machine has no transition (R234). `free` is the unspecified contents a fatal step leaves; a claim holds for every `free` (log 6). The three reads answer on a halted machine too (log 14). -/
def transact (free : State) (t : Transaction) (s : State) : Option (State × Reply) :=
  match s.status, t with
  | _, .readFramebuffer        => some (s, .framebuffer s.FB)
  | _, .readTone               => some (s, .tone s.tone)
  | _, .readKeys               => some (s, .keys s.key)
  | .halted _, .step           => none
  | .halted _, .tick           => none
  | .halted _, .loadImage _    => none
  | .halted _, .setKeys _      => none
  | .running, .step            => stepTransaction free s
  | .running, .tick            => some (s.tick, .nothing)
  | .running, .loadImage image => if s.imageFits image then some (s.load image, .loaded) else some (s, .imageTooLarge)
  | .running, .setKeys k       => some (s.setKeys k, .nothing)

end Sys2Proof.Machine
end

