-- ==== Sys2Proof/Safety.lean ====
section
/-! DEFINITION. The terms claims use: the invariant, the elements of the state and what each instruction may write (R35), the next pc (R104), the end of a run (R283), and reachability by host transactions (R251). -/

namespace Sys2Proof.Machine

/-! ### The invariant -/

/-- Memory in canonical form (the model's representation, log 9) and within the array (R30, R50), a font of legal size (R272), and at most one report (R232; the slot is log 4). -/
abbrev State.Inv (s : State) : Prop :=
  Memory.wf s.mem = true ∧ (∀ c ∈ s.mem, c.1 < s.memSize) ∧ s.params.wf = true ∧ s.reports.length ≤ 1

/-! ### Elements of the state -/

/-- One element of the state (R20), registers, stack entries, keys, cells and bytes each by themselves. -/
inductive Elem where
  | V (x : Reg)
  | I
  | pc
  | stack (j : Fin 16)
  | sp
  | DT
  | ST
  | key (k : Fin 16)
  | FB (px : Fin 64) (py : Fin 32)
  | mem (a : Nat)
  | tone
  | status
  | params
  | draws
  | reports
  deriving DecidableEq, Repr

/-- The element has the same value in both states. -/
def Elem.same (e : Elem) (s t : State) : Prop :=
  match e with
  | .V x      => t.reg x = s.reg x
  | .I        => t.I = s.I
  | .pc       => t.pc = s.pc
  | .stack j  => t.stack[j] = s.stack[j]
  | .sp       => t.sp = s.sp
  | .DT       => t.DT = s.DT
  | .ST       => t.ST = s.ST
  | .key k    => t.key[k] = s.key[k]
  | .FB px py => Framebuffer.cell t.FB px py = Framebuffer.cell s.FB px py
  | .mem a    => t.readByte a = s.readByte a
  | .tone     => t.tone = s.tone
  | .status   => t.status = s.status
  | .params   => t.params = s.params
  | .draws    => t.draws = s.draws
  | .reports  => t.reports = s.reports

/-- Every element that `changed` does not name is the same. -/
def SameBut (changed : Elem → Prop) (s t : State) : Prop := ∀ e, ¬ changed e → e.same s t

/-- What an instruction may write, besides `pc`, which every instruction writes (R35). The memory instructions' bytes are those at `I + j` (R176). -/
def mayWrite (i : Instr) (s : State) (e : Elem) : Prop :=
  e = .pc ∨
  match i with
  | .cls => ∃ px py, e = .FB px py
  | .ret => e = .sp ∨ e = .reports
  | .callAddr _ => e = .stack (Fin.ofNat 16 s.sp.val) ∨ e = .sp ∨ e = .reports
  | .jpAddr _ | .jpV0Addr _ | .seVxByte _ _ | .sneVxByte _ _ | .seVxVy _ _ _ | .sneVxVy _ _ _
  | .skpVx _ | .sknpVx _ => False
  | .ldVxByte x _ | .addVxByte x _ | .ldVxVy x _ | .orVxVy x _ | .andVxVy x _ | .xorVxVy x _
  | .ldVxDT x | .ldVxK x => e = .V x
  | .addVxVy x _ | .subVxVy x _ | .shrVx x _ | .subnVxVy x _ | .shlVx x _ => e = .V x ∨ e = .V VF
  | .rndVxByte x _ => e = .V x ∨ e = .draws
  | .ldIAddr _ | .addIVx _ | .ldFVx _ => e = .I
  | .drw _ _ _ => e = .V VF ∨ ∃ px py, e = .FB px py
  | .ldDTVx _ => e = .DT
  | .ldSTVx _ => e = .ST
  | .ldBVx _ => ∃ a, e = .mem a ∧ s.effAddr 0 ≤ a ∧ a < s.effAddr 3
  | .ldMemVx x => ∃ a, e = .mem a ∧ s.effAddr 0 ≤ a ∧ a < s.effAddr (x.val + 1)
  | .ldVxMem x => ∃ r : Reg, e = .V r ∧ r.val ≤ x.val

/-! ### The end of a run (R283) -/

/-- A run has ended normally: running, and the word at `pc` is a jump to itself. -/
def State.EndedNormally (s : State) : Prop :=
  s.status = .running ∧ ∃ w nnn, s.fetch = some w ∧ decode s.params w = .instr (.jpAddr nnn) ∧ addrOf nnn = s.pc

/-- A run has ended by fault. -/
def State.EndedByFault (s : State) : Prop := ∃ r, s.status = .halted r

/-! ### Runs: every interleaving of host transactions (R251) -/

/-- The states a host can bring about from a machine created with some legal parameters. -/
inductive Reachable : State → Prop where
  | created (p : Config.Params) (h : p.wf = true) : Reachable (State.create p)
  | after (free s t : State) (a : Transaction) (r : Reply) (hs : Reachable s) (ht : transact free a s = some (t, r)) :
      Reachable t

/-- The transactions of a list, one after another; none if one has no transition. -/
def runTransactions (free : State) : List Transaction → State → Option State
  | [], s => some s
  | a :: as, s =>
    match transact free a s with
    | some (t, _) => runTransactions free as t
    | none => none

end Sys2Proof.Machine
end

