-- ==== Sys2Proof/Certificates/Slice0/Obligations.lean ====
section
/-! DEFINITION. The statements for the provers. Each formalises rules of spec/ (named in its docstring and in OBLIGATIONS.json) or is derived from them. -/

open Sys2Proof Sys2Proof.Machine

/-! ### Terms of the statements -/

namespace Sys2Proof.Claims

/-- `base .. base+len-1` are all memory (R53); an empty range always is. -/
def InRange (s : State) (base len : Nat) : Prop := ∀ a, base ≤ a → a < base + len → a < s.memSize

/-- `a` is the lowest address of `base .. base+len-1` with `a >= MEM_SIZE` (R231). -/
def LowestOutside (s : State) (base len a : Nat) : Prop :=
  base ≤ a ∧ a < base + len ∧ s.memSize ≤ a ∧ ∀ b, base ≤ b → b < a → b < s.memSize

/-- Every general register but those named keeps its value. -/
def OtherRegsKept (named : List Reg) (s t : State) : Prop := ∀ r, r ∉ named → t.reg r = s.reg r

/-- How many bytes at `I` an instruction accesses (R52, R176). -/
def accessLength : Instr → Nat
  | .drw _ _ n => n.val
  | .ldBVx _ => 3
  | .ldMemVx x => x.val + 1
  | .ldVxMem x => x.val + 1
  | _ => 0

/-- The sprite of `DRW Vx, Vy, n` has a 1 bit on the cell in column `px`, row `py` (R191, R193): sprite row `r` is the byte at `I + r`, bit 7 leftmost, both coordinates wrapped. -/
def SpriteCovers (x y n : Fin 16) (s : State) (px : Fin 64) (py : Fin 32) : Prop :=
  ∃ r c : Nat, r < n.val ∧ c < 8 ∧ (s.readByte (s.I.toNat + r)).getLsbD (7 - c) = true ∧
    px.val = ((s.reg x).toNat + c) % 64 ∧ py.val = ((s.reg y).toNat + r) % 32

/-- `pc + 4` on a skip, `pc + 2` otherwise (R104). -/
def skipPc (s : State) (taken : Prop) [Decidable taken] : Addr := if taken then s.pc + 4 else s.pc + 2

/-- The final `pc` of each case of the table of R104, with `CALL_OVERFLOW_PC` for a call on a full stack; for `JP V0, addr`, that of R127 (log 12). -/
def nextPc (i : Instr) (s : State) : Addr :=
  match i with
  | .jpAddr nnn => nnn.zeroExtend 16
  | .jpV0Addr nnn => nnn.zeroExtend 16 + (s.reg 0).zeroExtend 16
  | .callAddr nnn =>
    if s.sp.val = 16 then (if s.params.callOverflowPc = .advance then s.pc + 2 else s.pc) else nnn.zeroExtend 16
  | .ret => if s.sp.val = 0 then s.pc else s.stack.toList.getD (s.sp.val - 1) 0
  | .seVxByte x kk => skipPc s (s.reg x = kk)
  | .sneVxByte x kk => skipPc s (s.reg x ≠ kk)
  | .seVxVy x y _ => skipPc s (s.reg x = s.reg y)
  | .sneVxVy x y _ => skipPc s (s.reg x ≠ s.reg y)
  | .skpVx x => skipPc s (s.key.toList.getD (s.reg x).toNat false = true)
  | .sknpVx x => skipPc s (s.key.toList.getD (s.reg x).toNat true = false)
  | .ldVxK _ => if ∃ k : Fin 16, s.key[k] = true then s.pc + 2 else s.pc
  | _ => s.pc + 2

/-- The reports of a step that fetched `w` (the table of R232). -/
def reportsOf (s : State) (w : Word) : List Report :=
  match decode s.params w with
  | .unrecognized _ => [.unknownOpcode s.pc w]
  | .instr .ret => if s.sp.val = 0 then [.stackUnderflow s.pc] else []
  | .instr (.callAddr _) => if s.sp.val = 16 then [.stackOverflow s.pc] else []
  | .instr _ => []

/-- The words of R76, by its bullets. -/
def UnrecognizedByR76 (p : Config.Params) (w : Word) : Prop :=
  let op := w.toNat / 0x1000; let n := w.toNat % 0x10; let kk := w.toNat % 0x100
  (op = 0x0 ∧ w ≠ 0x00E0 ∧ w ≠ 0x00EE) ∨
  (op = 0xB ∧ p.bnnnMode = .unrecognized) ∨
  (op = 0x8 ∧ (8 ≤ n ∧ n ≤ 0xD ∨ n = 0xF)) ∨
  (op = 0xE ∧ kk ≠ 0x9E ∧ kk ≠ 0xA1) ∨
  (op = 0xF ∧ kk ∉ [0x07, 0x0A, 0x15, 0x18, 0x1E, 0x29, 0x33, 0x55, 0x65]) ∨
  ((op = 0x5 ∨ op = 0x9) ∧ n ≠ 0 ∧ p.decode59 = .requireN0)

/-- Mask and match of each row of spec/opcode_table.json, in the table's order. -/
def opcodeTable : List (Nat × Nat) :=
  [(0xFFFF, 0x00E0), (0xFFFF, 0x00EE), (0xF000, 0x1000), (0xF000, 0x2000), (0xF000, 0x3000), (0xF000, 0x4000),
   (0xF000, 0x5000), (0xF000, 0x6000), (0xF000, 0x7000), (0xF00F, 0x8000), (0xF00F, 0x8001), (0xF00F, 0x8002),
   (0xF00F, 0x8003), (0xF00F, 0x8004), (0xF00F, 0x8005), (0xF00F, 0x8006), (0xF00F, 0x8007), (0xF00F, 0x800E)] ++
  [(0xF000, 0x9000), (0xF000, 0xA000), (0xF000, 0xB000), (0xF000, 0xC000), (0xF000, 0xD000), (0xF0FF, 0xE09E),
   (0xF0FF, 0xE0A1), (0xF0FF, 0xF007), (0xF0FF, 0xF00A), (0xF0FF, 0xF015), (0xF0FF, 0xF018), (0xF0FF, 0xF01E),
   (0xF0FF, 0xF029), (0xF0FF, 0xF033), (0xF0FF, 0xF055), (0xF0FF, 0xF065)]

/-- The row of the table an instruction stands for. -/
def rowIndex : Instr → Nat
  | .cls => 0 | .ret => 1 | .jpAddr _ => 2 | .callAddr _ => 3 | .seVxByte _ _ => 4 | .sneVxByte _ _ => 5
  | .seVxVy _ _ _ => 6 | .ldVxByte _ _ => 7 | .addVxByte _ _ => 8 | .ldVxVy _ _ => 9 | .orVxVy _ _ => 10
  | .andVxVy _ _ => 11 | .xorVxVy _ _ => 12 | .addVxVy _ _ => 13 | .subVxVy _ _ => 14 | .shrVx _ _ => 15
  | .subnVxVy _ _ => 16 | .shlVx _ _ => 17 | .sneVxVy _ _ _ => 18 | .ldIAddr _ => 19 | .jpV0Addr _ => 20
  | .rndVxByte _ _ => 21 | .drw _ _ _ => 22 | .skpVx _ => 23 | .sknpVx _ => 24 | .ldVxDT _ => 25 | .ldVxK _ => 26
  | .ldDTVx _ => 27 | .ldSTVx _ => 28 | .addIVx _ => 29 | .ldFVx _ => 30 | .ldBVx _ => 31 | .ldMemVx _ => 32
  | .ldVxMem _ => 33

/-- Apply a change to the next state of an outcome. -/
def mapNext (f : State → State) : Result → Result
  | .next t => .next (f t)
  | .fault r => .fault r
  | .refused r => .refused r

/-- The two states differ at most in stack entries that are not in use (R25). -/
def SameUpToStaleStack (s t : State) : Prop :=
  t = { s with stack := t.stack } ∧ ∀ j : Fin 16, j.val < s.sp.val → t.stack[j] = s.stack[j]

/-- Both outcomes stop alike, or both go on with related states. -/
def Agree (R : State → State → Prop) : Result → Result → Prop
  | .next t, .next u => R t u
  | .fault f, .fault g => f = g
  | .refused f, .refused g => f = g
  | _, _ => False

/-- Is the instruction one of the three that read the keypad (R28)? -/
def readsKeypad : Instr → Bool
  | .skpVx _ | .sknpVx _ | .ldVxK _ => true
  | _ => false

/-- Is the instruction `LD ST, Vx`? -/
def writesST : Instr → Bool
  | .ldSTVx _ => true
  | _ => false

/-- `n` ticks one after another. -/
def ticks : Nat → State → State
  | 0, s => s
  | n + 1, s => (ticks n s).tick

end Sys2Proof.Claims

open Sys2Proof.Claims

/-! ### Encoding -/

/-- R74, R75: every instruction of the machine, with every operand value, is what its word decodes to. That `SE Vx, Vy` and `SNE Vx, Vy` carry their ignored low nibble, so that it comes back, is the model's choice (log 11). -/
def Obligations.DecodeOfEncodeIsTheInstruction : Prop :=
  ∀ (p : Config.Params) (i : Instr), i.wellFormed p = true → decode p (encode i) = .instr i

/-- A word that decodes is the word of what it decodes to, an instruction of the machine (R74, R75). For `5xyn` and `9xyn` with `n != 0` this rests on the model's choice to keep the ignored nibble in the instruction (log 11): R75's own `SE_reg(x, y)` and `SNE_reg(x, y)` drop it. -/
def Obligations.EncodeOfDecodeIsTheWord : Prop :=
  ∀ (p : Config.Params) (w : Word) (i : Instr), decode p w = .instr i → encode i = w ∧ i.wellFormed p = true

/-- R76: the unrecognized words are exactly those listed, for every value of the parameters. -/
def Obligations.UnrecognizedWordsAreThoseListed : Prop :=
  ∀ (p : Config.Params) (w : Word), (∃ why, decode p w = .unrecognized why) ↔ UnrecognizedByR76 p w

/-- The opcode table's masks and matches select exactly the decoded row, on a machine that has all its rows (`ignore_n`, `jump_v0`). -/
def Obligations.OpcodeTableRowSelectsInstruction : Prop :=
  ∀ (p : Config.Params) (w : Word) (k : Nat) (row : Nat × Nat), p.decode59 = .ignoreN → p.bnnnMode = .jumpV0 →
    opcodeTable[k]? = some row →
    (w.toNat &&& row.1 = row.2 ↔ ∃ i, decode p w = .instr i ∧ rowIndex i = k)

/-- Words written out from the patterns of R74 and the examples of the instruction rules. -/
def Obligations.ExampleWordsDecode : Prop :=
  ∀ p : Config.Params, decode p 0x00E0 = .instr .cls ∧ decode p 0x12A4 = .instr (.jpAddr 0x2A4) ∧
    decode p 0x3342 = .instr (.seVxByte 3 0x42) ∧ decode p 0x8126 = .instr (.shrVx 1 2) ∧
    decode p 0xA300 = .instr (.ldIAddr 0x300) ∧ decode p 0xC40F = .instr (.rndVxByte 4 0x0F) ∧
    decode p 0xD012 = .instr (.drw 0 1 2) ∧ decode p 0xE0A1 = .instr (.sknpVx 0) ∧
    decode p 0xF255 = .instr (.ldMemVx 2) ∧ decode p 0x8128 = .unrecognized .group8

/-! ### The step -/

/-- R100, R101: a running machine's step reads the two bytes at `pc` big-endian, and runs the instruction they decode to, with an empty report list. -/
def Obligations.StepRunsDecodedInstruction : Prop :=
  ∀ (s : State) (w : Word) (i : Instr), s.status = .running → s.pc.toNat + 1 < s.memSize →
    w.toNat = (s.readByte s.pc.toNat).toNat * 256 + (s.readByte (s.pc.toNat + 1)).toNat →
    decode s.params w = .instr i → step s = exec i { s with reports := [] }

/-- R105: an unrecognized word gives one report and `pc + 2`; nothing else changes. -/
def Obligations.UnrecognizedWordIsReportedAndSkipped : Prop :=
  ∀ (s : State) (w : Word) (why : Unrecognized), s.status = .running → s.pc.toNat + 1 < s.memSize →
    w.toNat = (s.readByte s.pc.toNat).toNat * 256 + (s.readByte (s.pc.toNat + 1)).toNat →
    decode s.params w = .unrecognized why →
    ∃ t, step s = .next t ∧ t.reports = [.unknownOpcode s.pc w] ∧ t.pc = s.pc + 2 ∧
      SameBut (fun e => e = .pc ∨ e = .reports) s t

/-- R102: a step ends in `FetchOutOfBounds` exactly on a running machine whose `pc >= MEM_SIZE - 1`, and records that `pc`. -/
def Obligations.FetchFaultExactlyOutsideMemory : Prop :=
  ∀ (s : State) (a : Addr), step s = .fault (.fatal (.fetchOutOfBounds a)) ↔
    s.status = .running ∧ a = s.pc ∧ s.memSize ≤ s.pc.toNat + 1

/-- R234: a halted machine has no `Step`, `Tick`, `LoadImage` or `SetKeys` transition, and a fatal step leaves it halted with its reason. -/
def Obligations.HaltedMachineHasNoTransition : Prop :=
  (∀ (free s : State) (r : HaltReason) (image : List Byte) (k : BitVec 16), s.status = .halted r →
    transact free .step s = none ∧ transact free .tick s = none ∧
    transact free (.loadImage image) s = none ∧ transact free (.setKeys k) s = none ∧ step s = .fault (.halted r)) ∧
  (∀ (free s : State) (r : HaltReason), s.status = .running → step s = .fault (.fatal r) →
    ∃ t, transact free .step s = some (t, .fatal r) ∧ t.status = .halted r)

/-- R232: the reports of a step are those of the table, at most one, and no other step reports. -/
def Obligations.StepReportsAreThoseOfTheTable : Prop :=
  ∀ s t : State, step s = .next t → ∃ w, s.fetch = some w ∧ t.reports = reportsOf s w ∧ t.reports.length ≤ 1

/-- R231, R235: an instruction faults exactly when it accesses an address out of range, recording the lowest one, or is a key skip with an index above 15, recording it. -/
def Obligations.InstructionFaultsAreThoseNamed : Prop :=
  ∀ (i : Instr) (s : State) (f : Fault), exec i s = .fault f ↔
    (∃ a, f = .fatal (.memOutOfBounds a) ∧ LowestOutside s s.I.toNat (accessLength i) a) ∨
    (∃ x, (i = .skpVx x ∨ i = .sknpVx x) ∧ 15 < (s.reg x).toNat ∧ f = .fatal (.keyIndexOutOfRange (s.reg x)))

/-- No step's outcome is a refusal: no instruction is left without a meaning. -/
def Obligations.NoStepIsRefused : Prop := ∀ (s : State) (r : Refusal), step s ≠ .refused r

/-- R35: an instruction writes nothing its rule does not name; for the stores, no byte outside those at `I + j`. -/
def Obligations.InstructionsWriteOnlyWhatIsNamed : Prop :=
  ∀ (i : Instr) (s t : State), exec i s = .next t → SameBut (mayWrite i s) s t

/-- The program counter after every instruction, and after an unrecognized word, is that of R104's table; after `JP V0, addr`, which that table does not list, it is R127's target. That `exec` gives `JP V0, addr` this effect under every `BNNN_MODE` is the model's choice (log 12); a step reaches it under `jump_v0` only. -/
def Obligations.ProgramCounterFollowsTheTable : Prop :=
  (∀ (i : Instr) (s t : State), exec i s = .next t → t.pc = nextPc i s) ∧
  (∀ (w : Word) (s t : State), execUnrecognized w s = .next t → t.pc = s.pc + 2)

/-! ### The invariant, creation and reachable states -/

/-- Every step keeps the invariant: memory within the array (R50), a font of legal size (R272), at most one report (R232), and memory in canonical form, which is the model's representation (log 9), as the report slot is (log 4). -/
def Obligations.StepKeepsInvariant : Prop := ∀ s t : State, s.Inv → step s = .next t → t.Inv

/-- Creation satisfies the invariant, under every legal value of the parameters; `reset` is creation with the defaults. The invariant's canonical form of memory is the model's representation (log 9). -/
def Obligations.CreationSatisfiesInvariant : Prop :=
  State.reset.Inv ∧ State.create defaultParams = State.reset ∧ ∀ p : Config.Params, p.wf = true → (State.create p).Inv

/-- Every transaction of the host, a step among them, that leaves the machine running keeps the invariant, from every state that has it, reachable or not. The invariant's canonical form of memory is the model's representation (log 9). -/
def Obligations.TransactionsKeepInvariant : Prop :=
  ∀ (free s t : State) (a : Transaction) (r : Reply), s.Inv → transact free a s = some (t, r) → t.status = .running → t.Inv

/-- Every running state that any interleaving of host transactions can reach from creation satisfies the invariant (R251). The invariant's canonical form of memory is the model's representation (log 9). -/
def Obligations.ReachableRunningStatesSatisfyInvariant : Prop :=
  ∀ s : State, Reachable s → s.status = .running → s.Inv

/-- R34: the value of every element at creation, and the platform's bytes in place of the zeros where it supplies a font. -/
def Obligations.ResetIsTheCreationState : Prop :=
  (∀ r, State.reset.reg r = 0x00) ∧ State.reset.I = 0x0000 ∧ State.reset.pc = 0x0200 ∧
  (∀ j : Fin 16, State.reset.stack[j] = 0x0000) ∧ State.reset.sp = 0 ∧ State.reset.DT = 0x00 ∧ State.reset.ST = 0x00 ∧
  (∀ k : Fin 16, State.reset.key[k] = false) ∧ (∀ px py, Framebuffer.cell State.reset.FB px py = false) ∧
  (∀ a, State.reset.readByte a = 0x00) ∧ State.reset.tone = false ∧ State.reset.status = .running ∧
  (∀ p : Config.Params, p.wf = true → ∀ (j : Nat) (h : j < p.fontPreload.length), (State.create p).readByte j = p.fontPreload[j])

/-- R272: a platform's font lies from address 0; every other byte is zero, and nothing else differs from creation without a font. -/
def Obligations.FontPreloadLiesAtZero : Prop :=
  ∀ p : Config.Params, p.wf = true →
    (∀ j, (State.create p).readByte j = p.fontPreload.getD j 0x00) ∧
    SameBut (fun e => e = .params ∨ ∃ a, e = .mem a ∧ a < p.fontPreload.length) State.reset (State.create p)

/-- R5: no transaction changes the configuration. -/
def Obligations.TransactionsKeepConfiguration : Prop :=
  ∀ (free s t : State) (a : Transaction) (r : Reply), transact free a s = some (t, r) → t.params = s.params

/-! ### Control flow -/

/-- R120: `00EE`; `RET` pops the return address, and on an empty stack only reports. -/
def Obligations.ReturnPopsOrReportsUnderflow : Prop :=
  ∀ s : State, decode s.params 0x00EE = .instr .ret ∧ ∃ t, exec .ret s = .next t ∧
    (s.sp.val = 0 → t = { s with reports := s.reports ++ [.stackUnderflow s.pc] }) ∧
    (∀ h : 0 < s.sp.val, t.sp.val = s.sp.val - 1 ∧ t.pc = s.stack[s.sp.val - 1] ∧
      t = { s with sp := t.sp, pc := t.pc })

/-- R121: `1nnn`; `JP` sets `pc` to the zero-extended address and does nothing else. -/
def Obligations.JumpSetsProgramCounter : Prop :=
  ∀ (nnn : BitVec 12) (s : State),
    decode s.params (BitVec.ofNat 16 (0x1000 + nnn.toNat)) = .instr (.jpAddr nnn) ∧
    ∃ t, exec (.jpAddr nnn) s = .next t ∧ t.pc.toNat = nnn.toNat ∧ t = { s with pc := t.pc }

/-- R122: `2nnn`; `CALL` pushes `pc + 2` and jumps; with 16 entries in use it reports and advances or holds. -/
def Obligations.CallPushesOrReportsOverflow : Prop :=
  ∀ (nnn : BitVec 12) (s : State),
    decode s.params (BitVec.ofNat 16 (0x2000 + nnn.toNat)) = .instr (.callAddr nnn) ∧
    ∃ t, exec (.callAddr nnn) s = .next t ∧
    (∀ h : s.sp.val < 16, t.stack[s.sp.val] = s.pc + 2 ∧ t.sp.val = s.sp.val + 1 ∧ t.pc.toNat = nnn.toNat ∧
      (∀ j : Fin 16, j.val ≠ s.sp.val → t.stack[j] = s.stack[j]) ∧
      t = { s with stack := t.stack, sp := t.sp, pc := t.pc }) ∧
    (s.sp.val = 16 → t = { s with pc := t.pc, reports := s.reports ++ [.stackOverflow s.pc] } ∧
      (s.params.callOverflowPc = .advance → t.pc = s.pc + 2) ∧ (s.params.callOverflowPc = .hold → t.pc = s.pc))

/-- R120, R122 (S3): a call with room, followed at its target by a return, continues after the call, at the same depth. -/
def Obligations.CallThenReturnContinuesAfterCall : Prop :=
  ∀ (s : State) (w : Word) (nnn : BitVec 12), s.status = .running → s.fetch = some w →
    decode s.params w = .instr (.callAddr nnn) → s.sp.val < 16 →
    (nnn.toNat + 1 < s.memSize ∧ s.readByte nnn.toNat = 0x00 ∧ s.readByte (nnn.toNat + 1) = 0xEE) →
    ∃ t u, step s = .next t ∧ step t = .next u ∧ u.pc = s.pc + 2 ∧ u.sp = s.sp ∧ u.reports = []

/-- R123, R124: `3xkk` and `4xkk`; the immediate skips. -/
def Obligations.ImmediateSkipsCompareRegister : Prop :=
  ∀ (x : Reg) (kk : Byte) (s : State),
    decode s.params (BitVec.ofNat 16 (0x3000 + x.val * 0x100 + kk.toNat)) = .instr (.seVxByte x kk) ∧
    decode s.params (BitVec.ofNat 16 (0x4000 + x.val * 0x100 + kk.toNat)) = .instr (.sneVxByte x kk) ∧
    (∃ t, exec (.seVxByte x kk) s = .next t ∧ t = { s with pc := t.pc } ∧
      (s.reg x = kk → t.pc = s.pc + 4) ∧ (s.reg x ≠ kk → t.pc = s.pc + 2)) ∧
    (∃ t, exec (.sneVxByte x kk) s = .next t ∧ t = { s with pc := t.pc } ∧
      (s.reg x ≠ kk → t.pc = s.pc + 4) ∧ (s.reg x = kk → t.pc = s.pc + 2))

/-- The register skips `5xyn` and `9xyn` (R125, R126): a word with `n = 0`, or any `n` under `ignore_n`, decodes to them, and `n` has no effect. That the instruction carries `n` is the model's choice (log 11), and so is that `exec` gives it this effect under every `DECODE_5_9`, a nonzero `n` under `require_n0` included (log 12). -/
def Obligations.RegisterSkipsCompareRegisters : Prop :=
  ∀ (x y n : Fin 16) (s : State),
    (s.params.decode59 = .ignoreN ∨ n = 0 →
      decode s.params (BitVec.ofNat 16 (0x5000 + x.val * 0x100 + y.val * 0x10 + n.val)) = .instr (.seVxVy x y n) ∧
      decode s.params (BitVec.ofNat 16 (0x9000 + x.val * 0x100 + y.val * 0x10 + n.val)) = .instr (.sneVxVy x y n)) ∧
    (∃ t, exec (.seVxVy x y n) s = .next t ∧ t = { s with pc := t.pc } ∧
      (s.reg x = s.reg y → t.pc = s.pc + 4) ∧ (s.reg x ≠ s.reg y → t.pc = s.pc + 2)) ∧
    (∃ t, exec (.sneVxVy x y n) s = .next t ∧ t = { s with pc := t.pc } ∧
      (s.reg x ≠ s.reg y → t.pc = s.pc + 4) ∧ (s.reg x = s.reg y → t.pc = s.pc + 2))

/-- `Bnnn` is `JP V0, addr` under `jump_v0`, its target not reduced, and an unrecognized word under the default (R127). That `exec` gives `JP V0, addr` this effect under every `BNNN_MODE` is the model's choice (log 12); a step reaches it under `jump_v0` only. -/
def Obligations.JumpV0AddsRegisterZero : Prop :=
  ∀ (nnn : BitVec 12) (s : State),
    (s.params.bnnnMode = .jumpV0 →
      decode s.params (BitVec.ofNat 16 (0xB000 + nnn.toNat)) = .instr (.jpV0Addr nnn)) ∧
    (s.params.bnnnMode = .unrecognized →
      decode s.params (BitVec.ofNat 16 (0xB000 + nnn.toNat)) = .unrecognized .groupB) ∧
    ∃ t, exec (.jpV0Addr nnn) s = .next t ∧ t.pc.toNat = nnn.toNat + (s.reg 0).toNat ∧ t = { s with pc := t.pc }

/-! ### Loads, arithmetic and logic -/

/-- R140, R142: `6xkk` and `8xy0`; the immediate and the copied register, no other register changed. -/
def Obligations.LoadsSetTheirRegister : Prop :=
  ∀ (x y : Reg) (kk : Byte) (s : State),
    decode s.params (BitVec.ofNat 16 (0x6000 + x.val * 0x100 + kk.toNat)) = .instr (.ldVxByte x kk) ∧
    decode s.params (BitVec.ofNat 16 (0x8000 + x.val * 0x100 + y.val * 0x10)) = .instr (.ldVxVy x y) ∧
    (∃ t, exec (.ldVxByte x kk) s = .next t ∧ t.reg x = kk ∧ OtherRegsKept [x] s t ∧ t.pc = s.pc + 2) ∧
    (∃ t, exec (.ldVxVy x y) s = .next t ∧ t.reg x = s.reg y ∧ OtherRegsKept [x] s t ∧ t.pc = s.pc + 2)

/-- R141: `7xkk`; the sum modulo 256, and no flag: `VF` is unchanged unless it is `V[x]`. -/
def Obligations.AddImmediateWrapsWithoutFlag : Prop :=
  ∀ (x : Reg) (kk : Byte) (s : State),
    decode s.params (BitVec.ofNat 16 (0x7000 + x.val * 0x100 + kk.toNat)) = .instr (.addVxByte x kk) ∧
    ∃ t, exec (.addVxByte x kk) s = .next t ∧ (t.reg x).toNat = ((s.reg x).toNat + kk.toNat) % 256 ∧
      OtherRegsKept [x] s t ∧ t.pc = s.pc + 2

/-- R143, R144, R145: `8xy1`, `8xy2`, `8xy3`, bit by bit; `VF` is not reset. -/
def Obligations.LogicIsBitwiseWithoutFlag : Prop :=
  ∀ (x y : Reg) (s : State),
    decode s.params (BitVec.ofNat 16 (0x8001 + x.val * 0x100 + y.val * 0x10)) = .instr (.orVxVy x y) ∧
    decode s.params (BitVec.ofNat 16 (0x8002 + x.val * 0x100 + y.val * 0x10)) = .instr (.andVxVy x y) ∧
    decode s.params (BitVec.ofNat 16 (0x8003 + x.val * 0x100 + y.val * 0x10)) = .instr (.xorVxVy x y) ∧
    (∃ t, exec (.orVxVy x y) s = .next t ∧ OtherRegsKept [x] s t ∧ t.pc = s.pc + 2 ∧
      ∀ b < 8, (t.reg x).getLsbD b = ((s.reg x).getLsbD b || (s.reg y).getLsbD b)) ∧
    (∃ t, exec (.andVxVy x y) s = .next t ∧ OtherRegsKept [x] s t ∧ t.pc = s.pc + 2 ∧
      ∀ b < 8, (t.reg x).getLsbD b = ((s.reg x).getLsbD b && (s.reg y).getLsbD b)) ∧
    (∃ t, exec (.xorVxVy x y) s = .next t ∧ OtherRegsKept [x] s t ∧ t.pc = s.pc + 2 ∧
      ∀ b < 8, (t.reg x).getLsbD b = ((s.reg x).getLsbD b ^^ (s.reg y).getLsbD b))

/-- R147: `8xy4`; the sum modulo 256 in `V[x]`, the carry in `VF`; with `x = 15` the last write is that of `ARITH_FLAG_ORDER`. -/
def Obligations.AddSetsSumAndCarry : Prop :=
  ∀ (x y : Reg) (s : State),
    decode s.params (BitVec.ofNat 16 (0x8004 + x.val * 0x100 + y.val * 0x10)) = .instr (.addVxVy x y) ∧
    ∃ t, exec (.addVxVy x y) s = .next t ∧ OtherRegsKept [x, VF] s t ∧ t.pc = s.pc + 2 ∧
      let sum := (s.reg x).toNat + (s.reg y).toNat
      (x ≠ VF ∨ s.params.arithFlagOrder = .resultLast → (t.reg x).toNat = sum % 256) ∧
      (x ≠ VF ∨ s.params.arithFlagOrder = .flagLast → (t.reg VF).toNat = if sum > 255 then 1 else 0)

/-- R148, R150: `8xy5` and `8xy7`; the difference modulo 256 in `V[x]`, 1 in `VF` when there is no borrow; with `x = 15` per `ARITH_FLAG_ORDER`. -/
def Obligations.SubtractsSetDifferenceAndNotBorrow : Prop :=
  ∀ (x y : Reg) (s : State),
    decode s.params (BitVec.ofNat 16 (0x8005 + x.val * 0x100 + y.val * 0x10)) = .instr (.subVxVy x y) ∧
    decode s.params (BitVec.ofNat 16 (0x8007 + x.val * 0x100 + y.val * 0x10)) = .instr (.subnVxVy x y) ∧
    let a : Int := (s.reg x).toNat
    let b : Int := (s.reg y).toNat
    (∃ t, exec (.subVxVy x y) s = .next t ∧ OtherRegsKept [x, VF] s t ∧ t.pc = s.pc + 2 ∧
      (x ≠ VF ∨ s.params.arithFlagOrder = .resultLast → ((t.reg x).toNat : Int) = (a - b) % 256) ∧
      (x ≠ VF ∨ s.params.arithFlagOrder = .flagLast → (t.reg VF).toNat = if a ≥ b then 1 else 0)) ∧
    (∃ t, exec (.subnVxVy x y) s = .next t ∧ OtherRegsKept [x, VF] s t ∧ t.pc = s.pc + 2 ∧
      (x ≠ VF ∨ s.params.arithFlagOrder = .resultLast → ((t.reg x).toNat : Int) = (b - a) % 256) ∧
      (x ≠ VF ∨ s.params.arithFlagOrder = .flagLast → (t.reg VF).toNat = if b ≥ a then 1 else 0))

/-- R149: `8xy6`; bit 0 to `VF`, then the shift; `y` is ignored, and `VF` shifted itself ends 0. -/
def Obligations.ShiftRightWritesFlagThenShifts : Prop :=
  ∀ (x y : Reg) (s : State),
    decode s.params (BitVec.ofNat 16 (0x8006 + x.val * 0x100 + y.val * 0x10)) = .instr (.shrVx x y) ∧
    ∃ t, exec (.shrVx x y) s = .next t ∧ OtherRegsKept [x, VF] s t ∧ t.pc = s.pc + 2 ∧
      (x ≠ VF → (t.reg VF).toNat = (s.reg x).toNat % 2 ∧ (t.reg x).toNat = (s.reg x).toNat / 2) ∧
      (x = VF → (t.reg VF).toNat = 0)

/-- R151: `8xyE`; `ShlFlag` of the old value to `VF`, then the shift modulo 256; `y` is ignored, and `VF` shifted itself is the shifted flag. -/
def Obligations.ShiftLeftWritesFlagThenShifts : Prop :=
  ∀ (x y : Reg) (s : State),
    decode s.params (BitVec.ofNat 16 (0x800E + x.val * 0x100 + y.val * 0x10)) = .instr (.shlVx x y) ∧
    let v := (s.reg x).toNat
    let flg := match s.params.shlFlag with
      | .bit3 => v / 8 % 2
      | .bit3Raw => v / 8 % 2 * 8
      | .bit7 => v / 128
    ∃ t, exec (.shlVx x y) s = .next t ∧ OtherRegsKept [x, VF] s t ∧ t.pc = s.pc + 2 ∧
      (x ≠ VF → (t.reg VF).toNat = flg ∧ (t.reg x).toNat = v * 2 % 256) ∧
      (x = VF → (t.reg VF).toNat = flg * 2)

/-- R160: `Cxkk`; one free draw masked with `kk`. The draw is the opaque `Config.freeDraw`, so this holds for every draw; the next draw is another (log 5). -/
def Obligations.RandomIsMaskedFreeDraw : Prop :=
  ∀ (x : Reg) (kk : Byte) (s : State),
    decode s.params (BitVec.ofNat 16 (0xC000 + x.val * 0x100 + kk.toNat)) = .instr (.rndVxByte x kk) ∧
    ∃ t, exec (.rndVxByte x kk) s = .next t ∧ OtherRegsKept [x] s t ∧ t.pc = s.pc + 2 ∧ t.draws = s.draws + 1 ∧
      ∀ b < 8, (t.reg x).getLsbD b = ((Config.freeDraw s.draws).getLsbD b && kk.getLsbD b)

/-! ### Index register and memory -/

/-- R170, R171, R172: `Annn`, `Fx1E`, `Fx29`; `I` by assignment, by 16-bit wrapping addition, and to five times the whole register; no flag. -/
def Obligations.IndexInstructionsSetIndex : Prop :=
  ∀ (nnn : BitVec 12) (x : Reg) (s : State),
    decode s.params (BitVec.ofNat 16 (0xA000 + nnn.toNat)) = .instr (.ldIAddr nnn) ∧
    decode s.params (BitVec.ofNat 16 (0xF01E + x.val * 0x100)) = .instr (.addIVx x) ∧
    decode s.params (BitVec.ofNat 16 (0xF029 + x.val * 0x100)) = .instr (.ldFVx x) ∧
    (∃ t, exec (.ldIAddr nnn) s = .next t ∧ t.I.toNat = nnn.toNat ∧ t.pc = s.pc + 2 ∧ t.V = s.V) ∧
    (∃ t, exec (.addIVx x) s = .next t ∧ t.I.toNat = (s.I.toNat + (s.reg x).toNat) % 65536 ∧ t.pc = s.pc + 2 ∧ t.V = s.V) ∧
    (∃ t, exec (.ldFVx x) s = .next t ∧ t.I.toNat = (s.reg x).toNat * 5 ∧ t.pc = s.pc + 2 ∧ t.V = s.V)

/-- R173: `Fx33`; hundreds, tens and ones at `I`, `I+1`, `I+2`, every other byte as before; out of range it is fatal and records the lowest such address. -/
def Obligations.BcdStoresThreeDigits : Prop :=
  ∀ (x : Reg) (s : State),
    decode s.params (BitVec.ofNat 16 (0xF033 + x.val * 0x100)) = .instr (.ldBVx x) ∧
    (InRange s s.I.toNat 3 → ∃ t, exec (.ldBVx x) s = .next t ∧
      (t.readByte s.I.toNat).toNat = (s.reg x).toNat / 100 ∧
      (t.readByte (s.I.toNat + 1)).toNat = (s.reg x).toNat / 10 % 10 ∧
      (t.readByte (s.I.toNat + 2)).toNat = (s.reg x).toNat % 10 ∧
      (∀ a, a < s.I.toNat ∨ s.I.toNat + 3 ≤ a → t.readByte a = s.readByte a) ∧
      t.I = s.I ∧ t.V = s.V ∧ t.pc = s.pc + 2) ∧
    (∀ a, LowestOutside s s.I.toNat 3 a → exec (.ldBVx x) s = .fault (.fatal (.memOutOfBounds a)))

/-- R174: `Fx55`; `V[0..x]` at `I..I+x`, every other byte as before, `I` unchanged; out of range it is fatal. -/
def Obligations.RegisterDumpStoresThroughX : Prop :=
  ∀ (x : Reg) (s : State),
    decode s.params (BitVec.ofNat 16 (0xF055 + x.val * 0x100)) = .instr (.ldMemVx x) ∧
    (InRange s s.I.toNat (x.val + 1) → ∃ t, exec (.ldMemVx x) s = .next t ∧
      (∀ j : Reg, j ≤ x → t.readByte (s.I.toNat + j.val) = s.reg j) ∧
      (∀ a, a < s.I.toNat ∨ s.I.toNat + x.val < a → t.readByte a = s.readByte a) ∧
      t.I = s.I ∧ t.V = s.V ∧ t.pc = s.pc + 2) ∧
    (∀ a, LowestOutside s s.I.toNat (x.val + 1) a → exec (.ldMemVx x) s = .fault (.fatal (.memOutOfBounds a)))

/-- R175: `Fx65`; `V[0..x]` from `I..I+x`, the registers above `x`, memory and `I` as before; out of range it is fatal. -/
def Obligations.RegisterLoadLoadsThroughX : Prop :=
  ∀ (x : Reg) (s : State),
    decode s.params (BitVec.ofNat 16 (0xF065 + x.val * 0x100)) = .instr (.ldVxMem x) ∧
    (InRange s s.I.toNat (x.val + 1) → ∃ t, exec (.ldVxMem x) s = .next t ∧
      (∀ j : Reg, j ≤ x → t.reg j = s.readByte (s.I.toNat + j.val)) ∧ (∀ j : Reg, x < j → t.reg j = s.reg j) ∧
      (∀ a, t.readByte a = s.readByte a) ∧ t.I = s.I ∧ t.pc = s.pc + 2) ∧
    (∀ a, LowestOutside s s.I.toNat (x.val + 1) a → exec (.ldVxMem x) s = .fault (.fatal (.memOutOfBounds a)))

/-- R174, R175: a register dump followed by a register load of the same registers at the same `I` brings their values back, whatever the registers hold in between. -/
def Obligations.DumpThenLoadRestoresRegisters : Prop :=
  ∀ (x : Reg) (s t u : State), exec (.ldMemVx x) s = .next t →
    (u.I = t.I ∧ u.params = t.params ∧ ∀ a, u.readByte a = t.readByte a) →
    ∃ v, exec (.ldVxMem x) u = .next v ∧ ∀ j : Reg, j ≤ x → v.reg j = s.reg j

/-- R63: bytes a register dump stores at the next instruction's address are what the next step fetches. -/
def Obligations.StoreIntoCodeIsFetchedNext : Prop :=
  ∀ (x : Reg) (s : State), s.I.toNat = s.pc.toNat + 2 → 1 ≤ x.val → InRange s s.I.toNat (x.val + 1) →
    ∃ t w, exec (.ldMemVx x) s = .next t ∧ t.fetch = some w ∧ w.toNat = (s.reg 0).toNat * 256 + (s.reg 1).toNat

/-! ### Framebuffer -/

/-- R190: `00E0`; every cell unset, `VF` and every other register unchanged. -/
def Obligations.ClearScreenUnsetsEveryCell : Prop :=
  ∀ s : State, decode s.params 0x00E0 = .instr .cls ∧ ∃ t, exec .cls s = .next t ∧
    (∀ px py, Framebuffer.cell t.FB px py = false) ∧ t.V = s.V ∧ t.pc = s.pc + 2

/-- R191, R193: `Dxyn`; exactly the cells under a 1 bit of the sprite are inverted, both coordinates wrapping; `I` and memory unchanged; `n = 0` reads nothing; out of range it is fatal. -/
def Obligations.DrawInvertsCoveredCells : Prop :=
  ∀ (x y n : Fin 16) (s : State),
    decode s.params (BitVec.ofNat 16 (0xD000 + x.val * 0x100 + y.val * 0x10 + n.val)) = .instr (.drw x y n) ∧
    (InRange s s.I.toNat n.val → ∃ t, exec (.drw x y n) s = .next t ∧
      (∀ px py, SpriteCovers x y n s px py → Framebuffer.cell t.FB px py = !Framebuffer.cell s.FB px py) ∧
      (∀ px py, ¬ SpriteCovers x y n s px py → Framebuffer.cell t.FB px py = Framebuffer.cell s.FB px py) ∧
      OtherRegsKept [VF] s t ∧ t.I = s.I ∧ (∀ a, t.readByte a = s.readByte a) ∧ t.pc = s.pc + 2) ∧
    (∀ a, LowestOutside s s.I.toNat n.val a → exec (.drw x y n) s = .fault (.fatal (.memOutOfBounds a)))

/-- R192: after a completed draw `VF = 1` exactly when a cell under a 1 bit was lit before it, and 0 otherwise. -/
def Obligations.DrawFlagIsCollision : Prop :=
  ∀ (x y n : Fin 16) (s t : State), exec (.drw x y n) s = .next t →
    ((∃ px py, SpriteCovers x y n s px py ∧ Framebuffer.cell s.FB px py = true) → t.reg VF = 1) ∧
    ((¬ ∃ px py, SpriteCovers x y n s px py ∧ Framebuffer.cell s.FB px py = true) → t.reg VF = 0)

/-- R194 (C4): the same sprite drawn again at the same place brings every cell back, and the second draw's flag is 1 exactly when a cell under a 1 bit was unlit before the first. -/
def Obligations.SecondDrawRestoresPicture : Prop :=
  ∀ (x y n : Fin 16) (s t u : State), exec (.drw x y n) s = .next t →
    (u.FB = t.FB ∧ u.I = s.I ∧ u.reg x = s.reg x ∧ u.reg y = s.reg y ∧ u.params = s.params ∧
      ∀ a, u.readByte a = s.readByte a) →
    ∃ v, exec (.drw x y n) u = .next v ∧
      (∀ px py, Framebuffer.cell v.FB px py = Framebuffer.cell s.FB px py) ∧
      (v.reg VF = 1 ↔ ∃ px py, SpriteCovers x y n s px py ∧ Framebuffer.cell s.FB px py = false)

/-! ### Keypad and timers -/

/-- R210, R211, R216: `Ex9E` and `ExA1`; the skip is on the key named by `V[x]`, and an index above 15 is fatal. -/
def Obligations.KeySkipsTestNamedKey : Prop :=
  ∀ (x : Reg) (s : State),
    decode s.params (BitVec.ofNat 16 (0xE09E + x.val * 0x100)) = .instr (.skpVx x) ∧
    decode s.params (BitVec.ofNat 16 (0xE0A1 + x.val * 0x100)) = .instr (.sknpVx x) ∧
    (∀ k : Fin 16, (s.reg x).toNat = k.val →
      (∃ t, exec (.skpVx x) s = .next t ∧ t = { s with pc := t.pc } ∧
        (s.key[k] = true → t.pc = s.pc + 4) ∧ (s.key[k] = false → t.pc = s.pc + 2)) ∧
      (∃ t, exec (.sknpVx x) s = .next t ∧ t = { s with pc := t.pc } ∧
        (s.key[k] = false → t.pc = s.pc + 4) ∧ (s.key[k] = true → t.pc = s.pc + 2))) ∧
    (15 < (s.reg x).toNat →
      exec (.skpVx x) s = .fault (.fatal (.keyIndexOutOfRange (s.reg x))) ∧
      exec (.sknpVx x) s = .fault (.fatal (.keyIndexOutOfRange (s.reg x))))

/-- R212: `Fx0A`; the lowest-indexed pressed key, or, with none pressed, no change at all. -/
def Obligations.WaitForKeyTakesLowestPressed : Prop :=
  ∀ (x : Reg) (s : State),
    decode s.params (BitVec.ofNat 16 (0xF00A + x.val * 0x100)) = .instr (.ldVxK x) ∧
    (∀ k : Fin 16, s.key[k] = true → (∀ j : Fin 16, j < k → s.key[j] = false) →
      ∃ t, exec (.ldVxK x) s = .next t ∧ (t.reg x).toNat = k.val ∧ OtherRegsKept [x] s t ∧ t.pc = s.pc + 2) ∧
    ((∀ k : Fin 16, s.key[k] = false) → exec (.ldVxK x) s = .next s)

/-- R213, R214, R215: `Fx07`, `Fx15`, `Fx18`; direct copies between `V[x]` and the timers; none of the three writes `tone`. -/
def Obligations.TimerCopiesAreDirect : Prop :=
  ∀ (x : Reg) (s : State),
    decode s.params (BitVec.ofNat 16 (0xF007 + x.val * 0x100)) = .instr (.ldVxDT x) ∧
    decode s.params (BitVec.ofNat 16 (0xF015 + x.val * 0x100)) = .instr (.ldDTVx x) ∧
    decode s.params (BitVec.ofNat 16 (0xF018 + x.val * 0x100)) = .instr (.ldSTVx x) ∧
    (∃ t, exec (.ldVxDT x) s = .next t ∧ t.reg x = s.DT ∧ OtherRegsKept [x] s t ∧ t.DT = s.DT ∧ t.ST = s.ST ∧
      t.tone = s.tone ∧ t.pc = s.pc + 2) ∧
    (∃ t, exec (.ldDTVx x) s = .next t ∧ t.DT = s.reg x ∧ t.ST = s.ST ∧ t.tone = s.tone ∧ t.V = s.V ∧ t.pc = s.pc + 2) ∧
    (∃ t, exec (.ldSTVx x) s = .next t ∧ t.ST = s.reg x ∧ t.DT = s.DT ∧ t.tone = s.tone ∧ t.V = s.V ∧ t.pc = s.pc + 2)

/-! ### The host's transactions -/

/-- R250: `Tick`; on a running machine `tone` is set from the old `ST`, both timers go down by one with floor 0, and nothing else changes; on a halted one it has no effect. -/
def Obligations.TickCountsDownAndSetsTone : Prop :=
  (∀ free s : State, s.status = .running → ∃ t, transact free .tick s = some (t, .nothing) ∧
    (t.tone = true ↔ s.ST ≠ 0) ∧ t.DT.toNat = s.DT.toNat - 1 ∧ t.ST.toNat = s.ST.toNat - 1 ∧
    SameBut (fun e => e = .tone ∨ e = .DT ∨ e = .ST) s t) ∧
  (∀ (free s : State) (r : HaltReason), s.status = .halted r → transact free .tick s = none)

/-- R250 (S5): after `n` ticks the timers stand `n` lower, floored at 0, and the tone is on exactly when `ST` had at least `n` to go. -/
def Obligations.ManyTicksFloorAtZero : Prop :=
  ∀ (n : Nat) (s : State), (ticks n s).DT.toNat = s.DT.toNat - n ∧ (ticks n s).ST.toNat = s.ST.toNat - n ∧
    (1 ≤ n → ((ticks n s).tone = true ↔ n ≤ s.ST.toNat))

/-- R256: `SetKeys(k)` overwrites key `j` with bit `j`, and nothing else. -/
def Obligations.SetKeysWritesEveryKey : Prop :=
  ∀ (free s : State) (k : BitVec 16), s.status = .running → ∃ t, transact free (.setKeys k) s = some (t, .nothing) ∧
    (∀ j : Fin 16, t.key[j] = k.getLsbD j.val) ∧ SameBut (fun e => ∃ j, e = .key j) s t

/-- The host's reads answer the framebuffer (R255), the tone (R252) and the keypad (R256) of a running machine and change nothing, and the keypad reads back as `SetKeys` wrote it. That the keypad is read by an entry point of its own, as 16 Booleans, is the model's choice (log 16). -/
def Obligations.HostReadsAnswerTheStateUnchanged : Prop :=
  ∀ free s : State, s.status = .running →
    transact free .readFramebuffer s = some (s, .framebuffer s.FB) ∧
    transact free .readTone s = some (s, .tone s.tone) ∧
    transact free .readKeys s = some (s, .keys s.key) ∧
    ∀ k : BitVec 16, ∃ t keys, transact free (.setKeys k) s = some (t, .nothing) ∧
      transact free .readKeys t = some (t, .keys keys) ∧ ∀ j : Fin 16, keys[j] = k.getLsbD j.val

/-- R276, R277: an image that fits is copied verbatim from `0x200`; one that does not is answered `ImageTooLarge` and changes nothing; a halted machine loads nothing. -/
def Obligations.LoadImageCopiesOrRefusesWhole : Prop :=
  (∀ (free s : State) (image : List Byte), s.status = .running →
    (0x200 + image.length ≤ s.memSize → ∃ t, transact free (.loadImage image) s = some (t, .loaded) ∧
      (∀ j (h : j < image.length), t.readByte (0x200 + j) = image[j]) ∧
      SameBut (fun e => ∃ a, e = .mem a ∧ 0x200 ≤ a ∧ a < 0x200 + image.length) s t) ∧
    (s.memSize < 0x200 + image.length → transact free (.loadImage image) s = some (s, .imageTooLarge))) ∧
  (∀ (free s : State) (image : List Byte) (r : HaltReason), s.status = .halted r → transact free (.loadImage image) s = none)

/-- R275, R56: after an image is loaded, the word at an address is its two image bytes, high byte first. -/
def Obligations.LoadedImageIsFetchedBigEndian : Prop :=
  ∀ (free s t : State) (image : List Byte) (j : Nat) (h : j + 1 < image.length),
    transact free (.loadImage image) s = some (t, .loaded) → t.pc.toNat = 0x200 + j →
    ∃ w, t.fetch = some w ∧ w.toNat = image[j].toNat * 256 + image[j + 1].toNat

/-! ### Whole-machine statements -/

/-- R283: from a normally ended state every further step changes nothing (the step's report list, an output, is empty), however many. -/
def Obligations.SelfJumpIsSteady : Prop :=
  ∀ (s : State) (n : Nat), s.EndedNormally →
    Sys2Proof.core.run (n + 1) s = .next { s with reports := [] } ∧ ({ s with reports := [] } : State).EndedNormally

/-- R27, R31: no instruction reads `ST` or `tone`: with other values there, it does the same, and leaves them (`LD ST, Vx` sets `ST`). -/
def Obligations.SoundStateIsInvisibleToInstructions : Prop :=
  ∀ (i : Instr) (s : State) (a : Byte) (b : Bool),
    exec i { s with ST := a, tone := b } =
      mapNext (fun t => { t with ST := if writesST i then t.ST else a, tone := b }) (exec i s)

/-- R28, R35: only `SKP`, `SKNP` and `LD Vx, K` read the keypad: with other keys, every other instruction does the same. -/
def Obligations.KeypadIsInvisibleToOtherInstructions : Prop :=
  ∀ (i : Instr) (s : State) (keys : Vector Bool 16), readsKeypad i = false →
    exec i { s with key := keys } = mapNext (fun t => { t with key := keys }) (exec i s)

/-- R25: stack entries at index `sp` and above are never read: two machines that differ only there step alike and still differ only there. -/
def Obligations.StaleStackEntriesAreInvisible : Prop :=
  ∀ s t : State, SameUpToStaleStack s t → Agree SameUpToStaleStack (step s) (step t)
end

