-- ==== Sys2Proof/Laws/Decode.lean ====
section
/-! SUPPORT. The fields of the words of each format, the word of given fields, and the bytes of a word. -/

namespace Sys2Proof

/-! ### Fields as numbers -/

theorem opOf_val (w : Word) : (opOf w).val = w.toNat / 0x1000 := by
  have := w.isLt; simp [opOf, bits, Fin.ofNat]; omega

theorem xOf_val (w : Word) : (xOf w).val = w.toNat / 0x100 % 0x10 := by simp [xOf, bits, Fin.ofNat]

theorem yOf_val (w : Word) : (yOf w).val = w.toNat / 0x10 % 0x10 := by simp [yOf, bits, Fin.ofNat]

theorem nOf_val (w : Word) : (nOf w).val = w.toNat % 0x10 := by simp [nOf, bits, Fin.ofNat]

theorem kkOf_toNat (w : Word) : (kkOf w).toNat = w.toNat % 0x100 := by simp [kkOf, bits]

theorem nnnOf_toNat (w : Word) : (nnnOf w).toNat = w.toNat % 0x1000 := by simp [nnnOf, bits]

/-! ### Words as numbers -/

theorem wordNNN_toNat {op : Nat} (h : op < 16) (nnn : BitVec 12) : (wordNNN op nnn).toNat = op * 0x1000 + nnn.toNat := by
  have := nnn.isLt; simp [wordNNN]; omega

theorem wordXKK_toNat {op : Nat} (h : op < 16) (x : Fin 16) (kk : Byte) :
    (wordXKK op x kk).toNat = op * 0x1000 + x.val * 0x100 + kk.toNat := by
  have := kk.isLt; have := x.isLt; simp [wordXKK]; omega

theorem wordXYN_toNat {op : Nat} (h : op < 16) (x y n : Fin 16) :
    (wordXYN op x y n).toNat = op * 0x1000 + x.val * 0x100 + y.val * 0x10 + n.val := by
  have := x.isLt; have := y.isLt; have := n.isLt; simp [wordXYN]; omega

/-! ### Fields of the words of a format -/

theorem wordNNN_fields {op : Nat} (h : op < 16) (nnn : BitVec 12) :
    (opOf (wordNNN op nnn)).val = op ∧ nnnOf (wordNNN op nnn) = nnn := by
  have := nnn.isLt
  rw [opOf_val, ← BitVec.toNat_inj, nnnOf_toNat, wordNNN_toNat h]
  omega

theorem wordXKK_fields {op : Nat} (h : op < 16) (x : Fin 16) (kk : Byte) :
    (opOf (wordXKK op x kk)).val = op ∧ xOf (wordXKK op x kk) = x ∧ kkOf (wordXKK op x kk) = kk := by
  have := kk.isLt; have := x.isLt
  rw [opOf_val, ← BitVec.toNat_inj, Fin.ext_iff, xOf_val, kkOf_toNat, wordXKK_toNat h]
  omega

theorem wordXYN_fields {op : Nat} (h : op < 16) (x y n : Fin 16) :
    (opOf (wordXYN op x y n)).val = op ∧ xOf (wordXYN op x y n) = x ∧ yOf (wordXYN op x y n) = y ∧
      nOf (wordXYN op x y n) = n := by
  have := x.isLt; have := y.isLt; have := n.isLt
  rw [opOf_val, Fin.ext_iff, Fin.ext_iff, Fin.ext_iff, xOf_val, yOf_val, nOf_val, wordXYN_toNat h]
  omega

/-! ### The word of given fields -/

theorem wordNNN_of_fields {w : Word} {op : Nat} (h : (opOf w).val = op) : wordNNN op (nnnOf w) = w := by
  have := w.isLt
  rw [opOf_val] at h
  rw [← BitVec.toNat_inj, wordNNN_toNat (by omega), nnnOf_toNat]
  omega

theorem wordXKK_of_fields {w : Word} {op : Nat} (h : (opOf w).val = op) : wordXKK op (xOf w) (kkOf w) = w := by
  have := w.isLt
  rw [opOf_val] at h
  rw [← BitVec.toNat_inj, wordXKK_toNat (by omega), xOf_val, kkOf_toNat]
  omega

theorem wordXYN_of_fields {w : Word} {op : Nat} (h : (opOf w).val = op) : wordXYN op (xOf w) (yOf w) (nOf w) = w := by
  have := w.isLt
  rw [opOf_val] at h
  rw [← BitVec.toNat_inj, wordXYN_toNat (by omega), xOf_val, yOf_val, nOf_val]
  omega

/-! ### Bytes of a word (R56) -/

theorem wordOfBytes_toNat (hi lo : Byte) : (wordOfBytes hi lo).toNat = hi.toNat * 256 + lo.toNat := by
  have := hi.isLt; have := lo.isLt; simp [wordOfBytes]; omega

/-- A word laid out in its two bytes reads back. -/
theorem wordOfBytes_bytes (w : Word) : wordOfBytes (highByte w) (lowByte w) = w := by
  have := w.isLt
  rw [← BitVec.toNat_inj, wordOfBytes_toNat]
  simp [highByte, lowByte, bits]; omega

end Sys2Proof
end

