-- ==== Sys2Proof/Laws/Memory.lean ====
section
/-! SUPPORT. Memory: a read after a write, and that every write keeps the canonical form and the bound. -/

namespace Sys2Proof.Machine

/-! ### Reading after writing -/

theorem Memory.read_erase (m : Memory) (a b : Nat) :
    Memory.read (m.erase a) b = if b = a then Memory.unlisted else Memory.read m b := by
  induction m with
  | nil => simp [Memory.erase, Memory.read]
  | cons c m ih =>
    simp only [Memory.erase] at ih
    by_cases hc : c.1 = a
    · rw [show Memory.erase (c :: m) a = m.filter (fun c => c.1 ≠ a) by simp [Memory.erase, hc], ih]
      by_cases hb : b = a
      · simp [hb]
      · have : c.1 ≠ b := by omega
        simp [hb, Memory.read, this]
    · rw [show Memory.erase (c :: m) a = c :: m.filter (fun c => c.1 ≠ a) by simp [Memory.erase, hc]]
      by_cases hcb : c.1 = b
      · have : b ≠ a := by omega
        simp [Memory.read, hcb, this]
      · have e : Memory.read (c :: m.filter (fun c => c.1 ≠ a)) b = Memory.read (m.filter (fun c => c.1 ≠ a)) b := by
          simp only [Memory.read, hcb, if_false]
        rw [e, ih]; simp only [Memory.read, hcb, if_false]

theorem Memory.read_insert (m : Memory) (a b : Nat) (v : Byte) (h : Memory.read m a = Memory.unlisted ∧ ∀ c ∈ m, c.1 ≠ a) :
    Memory.read (m.insert a v) b = if b = a then v else Memory.read m b := by
  induction m with
  | nil =>
    by_cases hb : b = a
    · simp [Memory.insert, Memory.read, hb]
    · have : a ≠ b := fun e => hb e.symm
      simp [Memory.insert, Memory.read, hb, this]
  | cons c m ih =>
    have hca : c.1 ≠ a := h.2 c (by simp)
    have ih := ih ⟨by simpa [Memory.read, hca] using h.1, fun d hd => h.2 d (by simp [hd])⟩
    by_cases hlt : a < c.1
    · by_cases hb : b = a
      · simp [Memory.insert, hlt, Memory.read, hb]
      · have : a ≠ b := by omega
        simp [Memory.insert, hlt, Memory.read, hb, this]
    · by_cases hcb : c.1 = b
      · have : b ≠ a := by omega
        rw [show Memory.insert (c :: m) a v = c :: Memory.insert m a v by simp only [Memory.insert, hlt, if_false]]
        simp only [Memory.read, hcb, this, if_false, if_true]
      · simp only [Memory.insert, hlt, Memory.read, hcb, ih, if_false]

theorem Memory.mem_erase {m : Memory} {a : Nat} {c : Host.Cell} : c ∈ m.erase a ↔ c ∈ m ∧ c.1 ≠ a := by
  simp [Memory.erase]

/-- A read after a write: the byte written there, every other byte as before. -/
theorem Memory.read_write (m : Memory) (a b : Nat) (v : Byte) :
    Memory.read (m.write a v) b = if b = a then v else Memory.read m b := by
  unfold Memory.write
  split
  · rename_i h; rw [read_erase]; simp [h]
  · rw [read_insert _ _ _ _ ⟨by simp [read_erase], fun c hc => (mem_erase.1 hc).2⟩, read_erase]
    split <;> simp

/-- A read after a run of writes: the byte written, if the address lies in the run, else as before. -/
theorem Memory.read_writeBytes (bs : List Byte) : ∀ (m : Memory) (a b : Nat),
    Memory.read (m.writeBytes a bs) b = if a ≤ b ∧ b < a + bs.length then bs.getD (b - a) 0 else Memory.read m b := by
  induction bs with
  | nil => intro m a b; simp [Memory.writeBytes]
  | cons v bs ih =>
    intro m a b
    rw [Memory.writeBytes, ih, Memory.read_write]
    by_cases hb : b = a
    · subst hb; simp
    · by_cases h : a + 1 ≤ b ∧ b < a + 1 + bs.length
      · have h' : a ≤ b ∧ b < a + (bs.length + 1) := by omega
        have e : b - a = (b - (a + 1)) + 1 := by omega
        simp only [List.length_cons, h, h', and_self, if_true]
        rw [e, List.getD_cons_succ]
      · have h' : ¬ (a ≤ b ∧ b < a + (bs.length + 1)) := by omega
        simp only [List.length_cons, h, h', hb, if_false]

/-! ### The canonical form -/

@[simp] theorem Memory.wf_nil : Memory.wf [] = true := rfl

theorem Memory.wf_cons {c : Host.Cell} {m : Memory} :
    Memory.wf (c :: m) = true ↔ c.2 ≠ Memory.unlisted ∧ (∀ d ∈ m, c.1 < d.1) ∧ Memory.wf m = true := by
  simp [Memory.wf, and_assoc]

theorem Memory.wf_erase {m : Memory} (h : Memory.wf m = true) (a : Nat) : Memory.wf (m.erase a) = true := by
  induction m with
  | nil => rfl
  | cons c m ih =>
    obtain ⟨h1, h2, h3⟩ := wf_cons.1 h
    by_cases hc : c.1 = a
    · rw [show Memory.erase (c :: m) a = Memory.erase m a by simp [Memory.erase, hc]]; exact ih h3
    · rw [show Memory.erase (c :: m) a = c :: Memory.erase m a by simp [Memory.erase, hc]]
      exact wf_cons.2 ⟨h1, fun d hd => h2 d (mem_erase.1 hd).1, ih h3⟩

theorem Memory.mem_insert {m : Memory} {a : Nat} {v : Byte} {c : Host.Cell} :
    c ∈ m.insert a v ↔ c = (a, v) ∨ c ∈ m := by
  induction m with
  | nil => simp [Memory.insert]
  | cons d m ih =>
    by_cases h : a < d.1
    · simp [Memory.insert, h]
    · simp only [Memory.insert, h, if_false, List.mem_cons, ih]; tauto

theorem Memory.wf_insert {m : Memory} {a : Nat} {v : Byte} (h : Memory.wf m = true) (hv : v ≠ Memory.unlisted)
    (ha : ∀ c ∈ m, c.1 ≠ a) : Memory.wf (m.insert a v) = true := by
  induction m with
  | nil => exact wf_cons.2 ⟨hv, by simp, rfl⟩
  | cons c m ih =>
    obtain ⟨h1, h2, h3⟩ := wf_cons.1 h
    have hc : c.1 ≠ a := ha c (by simp)
    by_cases hlt : a < c.1
    · simp only [Memory.insert, hlt, if_true]
      refine wf_cons.2 ⟨hv, ?_, h⟩
      intro d hd
      rcases List.mem_cons.1 hd with rfl | hd
      · exact hlt
      · exact hlt.trans (h2 d hd)
    · simp only [Memory.insert, hlt, if_false]
      refine wf_cons.2 ⟨h1, ?_, ih h3 fun d hd => ha d (by simp [hd])⟩
      intro d hd
      rcases mem_insert.1 hd with rfl | hd
      · show c.1 < a; omega
      · exact h2 d hd

/-- A write keeps the canonical form. -/
theorem Memory.wf_write {m : Memory} (h : Memory.wf m = true) (a : Nat) (v : Byte) : Memory.wf (m.write a v) = true := by
  unfold Memory.write
  split
  · exact wf_erase h a
  · rename_i hv
    exact wf_insert (wf_erase h a) hv fun c hc => (mem_erase.1 hc).2

/-- A run of writes keeps the canonical form. -/
theorem Memory.wf_writeBytes {bs : List Byte} : ∀ {m : Memory}, Memory.wf m = true → ∀ a, Memory.wf (m.writeBytes a bs) = true := by
  induction bs with
  | nil => intro m h a; exact h
  | cons v bs ih => intro m h a; exact ih (wf_write h a v) (a + 1)

/-- A write lists no address but its own and those listed before. -/
theorem Memory.mem_write {m : Memory} {a : Nat} {v : Byte} {c : Host.Cell} (h : c ∈ m.write a v) : c.1 = a ∨ c ∈ m := by
  unfold Memory.write at h
  split at h
  · exact .inr (mem_erase.1 h).1
  · rcases mem_insert.1 h with rfl | h
    · exact .inl rfl
    · exact .inr (mem_erase.1 h).1

/-- A run of writes below `n` keeps every listed address below `n`. -/
theorem Memory.bound_writeBytes {n : Nat} {bs : List Byte} : ∀ {m : Memory} {a : Nat}, (∀ c ∈ m, c.1 < n) → a + bs.length ≤ n →
    ∀ c ∈ m.writeBytes a bs, c.1 < n := by
  induction bs with
  | nil => intro m a h _; exact h
  | cons v bs ih =>
    intro m a h hn
    simp only [List.length_cons] at hn
    refine ih (a := a + 1) ?_ (by omega)
    intro c hc
    rcases mem_write hc with hc | hc
    · omega
    · exact h c hc

end Sys2Proof.Machine
end

