-- ==== Sys2Proof/Laws/State.lean ====
section
/-! SUPPORT. What each update of the state leaves in each field: one lemma per field per update, true by rfl. -/

namespace Sys2Proof.Machine

/-- The memory size is the configuration's alone. -/
theorem State.memSize_congr {s t : State} (h : t.params = s.params) : t.memSize = s.memSize := by
  unfold State.memSize; rw [h]

/-! ### setReg -/

@[simp] theorem State.setReg_V (s : State) (x : Reg) (v : Byte) : (s.setReg x v).V = s.V.set x v := rfl
@[simp] theorem State.setReg_I (s : State) (x : Reg) (v : Byte) : (s.setReg x v).I = s.I := rfl
@[simp] theorem State.setReg_pc (s : State) (x : Reg) (v : Byte) : (s.setReg x v).pc = s.pc := rfl
@[simp] theorem State.setReg_stack (s : State) (x : Reg) (v : Byte) : (s.setReg x v).stack = s.stack := rfl
@[simp] theorem State.setReg_sp (s : State) (x : Reg) (v : Byte) : (s.setReg x v).sp = s.sp := rfl
@[simp] theorem State.setReg_DT (s : State) (x : Reg) (v : Byte) : (s.setReg x v).DT = s.DT := rfl
@[simp] theorem State.setReg_ST (s : State) (x : Reg) (v : Byte) : (s.setReg x v).ST = s.ST := rfl
@[simp] theorem State.setReg_key (s : State) (x : Reg) (v : Byte) : (s.setReg x v).key = s.key := rfl
@[simp] theorem State.setReg_FB (s : State) (x : Reg) (v : Byte) : (s.setReg x v).FB = s.FB := rfl
@[simp] theorem State.setReg_mem (s : State) (x : Reg) (v : Byte) : (s.setReg x v).mem = s.mem := rfl
@[simp] theorem State.setReg_tone (s : State) (x : Reg) (v : Byte) : (s.setReg x v).tone = s.tone := rfl
@[simp] theorem State.setReg_status (s : State) (x : Reg) (v : Byte) : (s.setReg x v).status = s.status := rfl
@[simp] theorem State.setReg_params (s : State) (x : Reg) (v : Byte) : (s.setReg x v).params = s.params := rfl
@[simp] theorem State.setReg_draws (s : State) (x : Reg) (v : Byte) : (s.setReg x v).draws = s.draws := rfl
@[simp] theorem State.setReg_reports (s : State) (x : Reg) (v : Byte) : (s.setReg x v).reports = s.reports := rfl
@[simp] theorem State.setReg_readByte (s : State) (x : Reg) (v : Byte) (a : Nat) : (s.setReg x v).readByte a = s.readByte a := rfl
@[simp] theorem State.setReg_memSize (s : State) (x : Reg) (v : Byte) : (s.setReg x v).memSize = s.memSize := State.memSize_congr rfl

/-! ### setI -/

@[simp] theorem State.setI_V (s : State) (v : Addr) : (s.setI v).V = s.V := rfl
@[simp] theorem State.setI_I (s : State) (v : Addr) : (s.setI v).I = v := rfl
@[simp] theorem State.setI_pc (s : State) (v : Addr) : (s.setI v).pc = s.pc := rfl
@[simp] theorem State.setI_stack (s : State) (v : Addr) : (s.setI v).stack = s.stack := rfl
@[simp] theorem State.setI_sp (s : State) (v : Addr) : (s.setI v).sp = s.sp := rfl
@[simp] theorem State.setI_DT (s : State) (v : Addr) : (s.setI v).DT = s.DT := rfl
@[simp] theorem State.setI_ST (s : State) (v : Addr) : (s.setI v).ST = s.ST := rfl
@[simp] theorem State.setI_key (s : State) (v : Addr) : (s.setI v).key = s.key := rfl
@[simp] theorem State.setI_FB (s : State) (v : Addr) : (s.setI v).FB = s.FB := rfl
@[simp] theorem State.setI_mem (s : State) (v : Addr) : (s.setI v).mem = s.mem := rfl
@[simp] theorem State.setI_tone (s : State) (v : Addr) : (s.setI v).tone = s.tone := rfl
@[simp] theorem State.setI_status (s : State) (v : Addr) : (s.setI v).status = s.status := rfl
@[simp] theorem State.setI_params (s : State) (v : Addr) : (s.setI v).params = s.params := rfl
@[simp] theorem State.setI_draws (s : State) (v : Addr) : (s.setI v).draws = s.draws := rfl
@[simp] theorem State.setI_reports (s : State) (v : Addr) : (s.setI v).reports = s.reports := rfl
@[simp] theorem State.setI_reg (s : State) (v : Addr) (r : Reg) : (s.setI v).reg r = s.reg r := rfl
@[simp] theorem State.setI_readByte (s : State) (v : Addr) (a : Nat) : (s.setI v).readByte a = s.readByte a := rfl
@[simp] theorem State.setI_memSize (s : State) (v : Addr) : (s.setI v).memSize = s.memSize := State.memSize_congr rfl

/-! ### setDT -/

@[simp] theorem State.setDT_V (s : State) (v : Byte) : (s.setDT v).V = s.V := rfl
@[simp] theorem State.setDT_I (s : State) (v : Byte) : (s.setDT v).I = s.I := rfl
@[simp] theorem State.setDT_pc (s : State) (v : Byte) : (s.setDT v).pc = s.pc := rfl
@[simp] theorem State.setDT_stack (s : State) (v : Byte) : (s.setDT v).stack = s.stack := rfl
@[simp] theorem State.setDT_sp (s : State) (v : Byte) : (s.setDT v).sp = s.sp := rfl
@[simp] theorem State.setDT_DT (s : State) (v : Byte) : (s.setDT v).DT = v := rfl
@[simp] theorem State.setDT_ST (s : State) (v : Byte) : (s.setDT v).ST = s.ST := rfl
@[simp] theorem State.setDT_key (s : State) (v : Byte) : (s.setDT v).key = s.key := rfl
@[simp] theorem State.setDT_FB (s : State) (v : Byte) : (s.setDT v).FB = s.FB := rfl
@[simp] theorem State.setDT_mem (s : State) (v : Byte) : (s.setDT v).mem = s.mem := rfl
@[simp] theorem State.setDT_tone (s : State) (v : Byte) : (s.setDT v).tone = s.tone := rfl
@[simp] theorem State.setDT_status (s : State) (v : Byte) : (s.setDT v).status = s.status := rfl
@[simp] theorem State.setDT_params (s : State) (v : Byte) : (s.setDT v).params = s.params := rfl
@[simp] theorem State.setDT_draws (s : State) (v : Byte) : (s.setDT v).draws = s.draws := rfl
@[simp] theorem State.setDT_reports (s : State) (v : Byte) : (s.setDT v).reports = s.reports := rfl
@[simp] theorem State.setDT_reg (s : State) (v : Byte) (r : Reg) : (s.setDT v).reg r = s.reg r := rfl
@[simp] theorem State.setDT_readByte (s : State) (v : Byte) (a : Nat) : (s.setDT v).readByte a = s.readByte a := rfl
@[simp] theorem State.setDT_memSize (s : State) (v : Byte) : (s.setDT v).memSize = s.memSize := State.memSize_congr rfl

/-! ### setST -/

@[simp] theorem State.setST_V (s : State) (v : Byte) : (s.setST v).V = s.V := rfl
@[simp] theorem State.setST_I (s : State) (v : Byte) : (s.setST v).I = s.I := rfl
@[simp] theorem State.setST_pc (s : State) (v : Byte) : (s.setST v).pc = s.pc := rfl
@[simp] theorem State.setST_stack (s : State) (v : Byte) : (s.setST v).stack = s.stack := rfl
@[simp] theorem State.setST_sp (s : State) (v : Byte) : (s.setST v).sp = s.sp := rfl
@[simp] theorem State.setST_DT (s : State) (v : Byte) : (s.setST v).DT = s.DT := rfl
@[simp] theorem State.setST_ST (s : State) (v : Byte) : (s.setST v).ST = v := rfl
@[simp] theorem State.setST_key (s : State) (v : Byte) : (s.setST v).key = s.key := rfl
@[simp] theorem State.setST_FB (s : State) (v : Byte) : (s.setST v).FB = s.FB := rfl
@[simp] theorem State.setST_mem (s : State) (v : Byte) : (s.setST v).mem = s.mem := rfl
@[simp] theorem State.setST_tone (s : State) (v : Byte) : (s.setST v).tone = s.tone := rfl
@[simp] theorem State.setST_status (s : State) (v : Byte) : (s.setST v).status = s.status := rfl
@[simp] theorem State.setST_params (s : State) (v : Byte) : (s.setST v).params = s.params := rfl
@[simp] theorem State.setST_draws (s : State) (v : Byte) : (s.setST v).draws = s.draws := rfl
@[simp] theorem State.setST_reports (s : State) (v : Byte) : (s.setST v).reports = s.reports := rfl
@[simp] theorem State.setST_reg (s : State) (v : Byte) (r : Reg) : (s.setST v).reg r = s.reg r := rfl
@[simp] theorem State.setST_readByte (s : State) (v : Byte) (a : Nat) : (s.setST v).readByte a = s.readByte a := rfl
@[simp] theorem State.setST_memSize (s : State) (v : Byte) : (s.setST v).memSize = s.memSize := State.memSize_congr rfl

/-! ### setPc -/

@[simp] theorem State.setPc_V (s : State) (v : Addr) : (s.setPc v).V = s.V := rfl
@[simp] theorem State.setPc_I (s : State) (v : Addr) : (s.setPc v).I = s.I := rfl
@[simp] theorem State.setPc_pc (s : State) (v : Addr) : (s.setPc v).pc = v := rfl
@[simp] theorem State.setPc_stack (s : State) (v : Addr) : (s.setPc v).stack = s.stack := rfl
@[simp] theorem State.setPc_sp (s : State) (v : Addr) : (s.setPc v).sp = s.sp := rfl
@[simp] theorem State.setPc_DT (s : State) (v : Addr) : (s.setPc v).DT = s.DT := rfl
@[simp] theorem State.setPc_ST (s : State) (v : Addr) : (s.setPc v).ST = s.ST := rfl
@[simp] theorem State.setPc_key (s : State) (v : Addr) : (s.setPc v).key = s.key := rfl
@[simp] theorem State.setPc_FB (s : State) (v : Addr) : (s.setPc v).FB = s.FB := rfl
@[simp] theorem State.setPc_mem (s : State) (v : Addr) : (s.setPc v).mem = s.mem := rfl
@[simp] theorem State.setPc_tone (s : State) (v : Addr) : (s.setPc v).tone = s.tone := rfl
@[simp] theorem State.setPc_status (s : State) (v : Addr) : (s.setPc v).status = s.status := rfl
@[simp] theorem State.setPc_params (s : State) (v : Addr) : (s.setPc v).params = s.params := rfl
@[simp] theorem State.setPc_draws (s : State) (v : Addr) : (s.setPc v).draws = s.draws := rfl
@[simp] theorem State.setPc_reports (s : State) (v : Addr) : (s.setPc v).reports = s.reports := rfl
@[simp] theorem State.setPc_reg (s : State) (v : Addr) (r : Reg) : (s.setPc v).reg r = s.reg r := rfl
@[simp] theorem State.setPc_readByte (s : State) (v : Addr) (a : Nat) : (s.setPc v).readByte a = s.readByte a := rfl
@[simp] theorem State.setPc_memSize (s : State) (v : Addr) : (s.setPc v).memSize = s.memSize := State.memSize_congr rfl

/-! ### advance -/

@[simp] theorem State.advance_V (s : State) : (s.advance).V = s.V := rfl
@[simp] theorem State.advance_I (s : State) : (s.advance).I = s.I := rfl
@[simp] theorem State.advance_pc (s : State) : (s.advance).pc = s.pc + 2 := rfl
@[simp] theorem State.advance_stack (s : State) : (s.advance).stack = s.stack := rfl
@[simp] theorem State.advance_sp (s : State) : (s.advance).sp = s.sp := rfl
@[simp] theorem State.advance_DT (s : State) : (s.advance).DT = s.DT := rfl
@[simp] theorem State.advance_ST (s : State) : (s.advance).ST = s.ST := rfl
@[simp] theorem State.advance_key (s : State) : (s.advance).key = s.key := rfl
@[simp] theorem State.advance_FB (s : State) : (s.advance).FB = s.FB := rfl
@[simp] theorem State.advance_mem (s : State) : (s.advance).mem = s.mem := rfl
@[simp] theorem State.advance_tone (s : State) : (s.advance).tone = s.tone := rfl
@[simp] theorem State.advance_status (s : State) : (s.advance).status = s.status := rfl
@[simp] theorem State.advance_params (s : State) : (s.advance).params = s.params := rfl
@[simp] theorem State.advance_draws (s : State) : (s.advance).draws = s.draws := rfl
@[simp] theorem State.advance_reports (s : State) : (s.advance).reports = s.reports := rfl
@[simp] theorem State.advance_reg (s : State) (r : Reg) : (s.advance).reg r = s.reg r := rfl
@[simp] theorem State.advance_readByte (s : State) (a : Nat) : (s.advance).readByte a = s.readByte a := rfl
@[simp] theorem State.advance_memSize (s : State) : (s.advance).memSize = s.memSize := State.memSize_congr rfl

/-! ### skipIf -/

@[simp] theorem State.skipIf_V (s : State) (b : Bool) : (s.skipIf b).V = s.V := rfl
@[simp] theorem State.skipIf_I (s : State) (b : Bool) : (s.skipIf b).I = s.I := rfl
@[simp] theorem State.skipIf_pc (s : State) (b : Bool) : (s.skipIf b).pc = if b then s.pc + 4 else s.pc + 2 := rfl
@[simp] theorem State.skipIf_stack (s : State) (b : Bool) : (s.skipIf b).stack = s.stack := rfl
@[simp] theorem State.skipIf_sp (s : State) (b : Bool) : (s.skipIf b).sp = s.sp := rfl
@[simp] theorem State.skipIf_DT (s : State) (b : Bool) : (s.skipIf b).DT = s.DT := rfl
@[simp] theorem State.skipIf_ST (s : State) (b : Bool) : (s.skipIf b).ST = s.ST := rfl
@[simp] theorem State.skipIf_key (s : State) (b : Bool) : (s.skipIf b).key = s.key := rfl
@[simp] theorem State.skipIf_FB (s : State) (b : Bool) : (s.skipIf b).FB = s.FB := rfl
@[simp] theorem State.skipIf_mem (s : State) (b : Bool) : (s.skipIf b).mem = s.mem := rfl
@[simp] theorem State.skipIf_tone (s : State) (b : Bool) : (s.skipIf b).tone = s.tone := rfl
@[simp] theorem State.skipIf_status (s : State) (b : Bool) : (s.skipIf b).status = s.status := rfl
@[simp] theorem State.skipIf_params (s : State) (b : Bool) : (s.skipIf b).params = s.params := rfl
@[simp] theorem State.skipIf_draws (s : State) (b : Bool) : (s.skipIf b).draws = s.draws := rfl
@[simp] theorem State.skipIf_reports (s : State) (b : Bool) : (s.skipIf b).reports = s.reports := rfl
@[simp] theorem State.skipIf_reg (s : State) (b : Bool) (r : Reg) : (s.skipIf b).reg r = s.reg r := rfl
@[simp] theorem State.skipIf_readByte (s : State) (b : Bool) (a : Nat) : (s.skipIf b).readByte a = s.readByte a := rfl
@[simp] theorem State.skipIf_memSize (s : State) (b : Bool) : (s.skipIf b).memSize = s.memSize := State.memSize_congr rfl

/-! ### push -/

@[simp] theorem State.push_V (s : State) (v : Addr) : (s.push v).V = s.V := rfl
@[simp] theorem State.push_I (s : State) (v : Addr) : (s.push v).I = s.I := rfl
@[simp] theorem State.push_pc (s : State) (v : Addr) : (s.push v).pc = s.pc := rfl
@[simp] theorem State.push_stack (s : State) (v : Addr) : (s.push v).stack = s.stack.setIfInBounds s.sp.val v := rfl
@[simp] theorem State.push_sp (s : State) (v : Addr) : (s.push v).sp = ⟨min (s.sp.val + 1) 16, by omega⟩ := rfl
@[simp] theorem State.push_DT (s : State) (v : Addr) : (s.push v).DT = s.DT := rfl
@[simp] theorem State.push_ST (s : State) (v : Addr) : (s.push v).ST = s.ST := rfl
@[simp] theorem State.push_key (s : State) (v : Addr) : (s.push v).key = s.key := rfl
@[simp] theorem State.push_FB (s : State) (v : Addr) : (s.push v).FB = s.FB := rfl
@[simp] theorem State.push_mem (s : State) (v : Addr) : (s.push v).mem = s.mem := rfl
@[simp] theorem State.push_tone (s : State) (v : Addr) : (s.push v).tone = s.tone := rfl
@[simp] theorem State.push_status (s : State) (v : Addr) : (s.push v).status = s.status := rfl
@[simp] theorem State.push_params (s : State) (v : Addr) : (s.push v).params = s.params := rfl
@[simp] theorem State.push_draws (s : State) (v : Addr) : (s.push v).draws = s.draws := rfl
@[simp] theorem State.push_reports (s : State) (v : Addr) : (s.push v).reports = s.reports := rfl
@[simp] theorem State.push_reg (s : State) (v : Addr) (r : Reg) : (s.push v).reg r = s.reg r := rfl
@[simp] theorem State.push_readByte (s : State) (v : Addr) (a : Nat) : (s.push v).readByte a = s.readByte a := rfl
@[simp] theorem State.push_memSize (s : State) (v : Addr) : (s.push v).memSize = s.memSize := State.memSize_congr rfl

/-! ### popPc -/

@[simp] theorem State.popPc_V (s : State) : s.popPc.V = s.V := rfl
@[simp] theorem State.popPc_I (s : State) : s.popPc.I = s.I := rfl
@[simp] theorem State.popPc_pc (s : State) : s.popPc.pc = s.stack[s.sp.val - 1] := rfl
@[simp] theorem State.popPc_stack (s : State) : s.popPc.stack = s.stack := rfl
@[simp] theorem State.popPc_sp (s : State) : s.popPc.sp = ⟨s.sp.val - 1, by omega⟩ := rfl
@[simp] theorem State.popPc_DT (s : State) : s.popPc.DT = s.DT := rfl
@[simp] theorem State.popPc_ST (s : State) : s.popPc.ST = s.ST := rfl
@[simp] theorem State.popPc_key (s : State) : s.popPc.key = s.key := rfl
@[simp] theorem State.popPc_FB (s : State) : s.popPc.FB = s.FB := rfl
@[simp] theorem State.popPc_mem (s : State) : s.popPc.mem = s.mem := rfl
@[simp] theorem State.popPc_tone (s : State) : s.popPc.tone = s.tone := rfl
@[simp] theorem State.popPc_status (s : State) : s.popPc.status = s.status := rfl
@[simp] theorem State.popPc_params (s : State) : s.popPc.params = s.params := rfl
@[simp] theorem State.popPc_draws (s : State) : s.popPc.draws = s.draws := rfl
@[simp] theorem State.popPc_reports (s : State) : s.popPc.reports = s.reports := rfl
@[simp] theorem State.popPc_reg (s : State) (r : Reg) : s.popPc.reg r = s.reg r := rfl
@[simp] theorem State.popPc_readByte (s : State) (a : Nat) : s.popPc.readByte a = s.readByte a := rfl
@[simp] theorem State.popPc_memSize (s : State) : s.popPc.memSize = s.memSize := State.memSize_congr rfl

/-! ### setFB -/

@[simp] theorem State.setFB_V (s : State) (fb : Framebuffer) : (s.setFB fb).V = s.V := rfl
@[simp] theorem State.setFB_I (s : State) (fb : Framebuffer) : (s.setFB fb).I = s.I := rfl
@[simp] theorem State.setFB_pc (s : State) (fb : Framebuffer) : (s.setFB fb).pc = s.pc := rfl
@[simp] theorem State.setFB_stack (s : State) (fb : Framebuffer) : (s.setFB fb).stack = s.stack := rfl
@[simp] theorem State.setFB_sp (s : State) (fb : Framebuffer) : (s.setFB fb).sp = s.sp := rfl
@[simp] theorem State.setFB_DT (s : State) (fb : Framebuffer) : (s.setFB fb).DT = s.DT := rfl
@[simp] theorem State.setFB_ST (s : State) (fb : Framebuffer) : (s.setFB fb).ST = s.ST := rfl
@[simp] theorem State.setFB_key (s : State) (fb : Framebuffer) : (s.setFB fb).key = s.key := rfl
@[simp] theorem State.setFB_FB (s : State) (fb : Framebuffer) : (s.setFB fb).FB = fb := rfl
@[simp] theorem State.setFB_mem (s : State) (fb : Framebuffer) : (s.setFB fb).mem = s.mem := rfl
@[simp] theorem State.setFB_tone (s : State) (fb : Framebuffer) : (s.setFB fb).tone = s.tone := rfl
@[simp] theorem State.setFB_status (s : State) (fb : Framebuffer) : (s.setFB fb).status = s.status := rfl
@[simp] theorem State.setFB_params (s : State) (fb : Framebuffer) : (s.setFB fb).params = s.params := rfl
@[simp] theorem State.setFB_draws (s : State) (fb : Framebuffer) : (s.setFB fb).draws = s.draws := rfl
@[simp] theorem State.setFB_reports (s : State) (fb : Framebuffer) : (s.setFB fb).reports = s.reports := rfl
@[simp] theorem State.setFB_reg (s : State) (fb : Framebuffer) (r : Reg) : (s.setFB fb).reg r = s.reg r := rfl
@[simp] theorem State.setFB_readByte (s : State) (fb : Framebuffer) (a : Nat) : (s.setFB fb).readByte a = s.readByte a := rfl
@[simp] theorem State.setFB_memSize (s : State) (fb : Framebuffer) : (s.setFB fb).memSize = s.memSize := State.memSize_congr rfl

/-! ### storeBytes -/

@[simp] theorem State.storeBytes_V (s : State) (a : Nat) (bs : List Byte) : (s.storeBytes a bs).V = s.V := rfl
@[simp] theorem State.storeBytes_I (s : State) (a : Nat) (bs : List Byte) : (s.storeBytes a bs).I = s.I := rfl
@[simp] theorem State.storeBytes_pc (s : State) (a : Nat) (bs : List Byte) : (s.storeBytes a bs).pc = s.pc := rfl
@[simp] theorem State.storeBytes_stack (s : State) (a : Nat) (bs : List Byte) : (s.storeBytes a bs).stack = s.stack := rfl
@[simp] theorem State.storeBytes_sp (s : State) (a : Nat) (bs : List Byte) : (s.storeBytes a bs).sp = s.sp := rfl
@[simp] theorem State.storeBytes_DT (s : State) (a : Nat) (bs : List Byte) : (s.storeBytes a bs).DT = s.DT := rfl
@[simp] theorem State.storeBytes_ST (s : State) (a : Nat) (bs : List Byte) : (s.storeBytes a bs).ST = s.ST := rfl
@[simp] theorem State.storeBytes_key (s : State) (a : Nat) (bs : List Byte) : (s.storeBytes a bs).key = s.key := rfl
@[simp] theorem State.storeBytes_FB (s : State) (a : Nat) (bs : List Byte) : (s.storeBytes a bs).FB = s.FB := rfl
@[simp] theorem State.storeBytes_mem (s : State) (a : Nat) (bs : List Byte) : (s.storeBytes a bs).mem = Memory.writeBytes s.mem a bs := rfl
@[simp] theorem State.storeBytes_tone (s : State) (a : Nat) (bs : List Byte) : (s.storeBytes a bs).tone = s.tone := rfl
@[simp] theorem State.storeBytes_status (s : State) (a : Nat) (bs : List Byte) : (s.storeBytes a bs).status = s.status := rfl
@[simp] theorem State.storeBytes_params (s : State) (a : Nat) (bs : List Byte) : (s.storeBytes a bs).params = s.params := rfl
@[simp] theorem State.storeBytes_draws (s : State) (a : Nat) (bs : List Byte) : (s.storeBytes a bs).draws = s.draws := rfl
@[simp] theorem State.storeBytes_reports (s : State) (a : Nat) (bs : List Byte) : (s.storeBytes a bs).reports = s.reports := rfl
@[simp] theorem State.storeBytes_reg (s : State) (a : Nat) (bs : List Byte) (r : Reg) : (s.storeBytes a bs).reg r = s.reg r := rfl
@[simp] theorem State.storeBytes_memSize (s : State) (a : Nat) (bs : List Byte) : (s.storeBytes a bs).memSize = s.memSize := State.memSize_congr rfl

/-! ### nextDraw -/

@[simp] theorem State.nextDraw_V (s : State) : (s.nextDraw).V = s.V := rfl
@[simp] theorem State.nextDraw_I (s : State) : (s.nextDraw).I = s.I := rfl
@[simp] theorem State.nextDraw_pc (s : State) : (s.nextDraw).pc = s.pc := rfl
@[simp] theorem State.nextDraw_stack (s : State) : (s.nextDraw).stack = s.stack := rfl
@[simp] theorem State.nextDraw_sp (s : State) : (s.nextDraw).sp = s.sp := rfl
@[simp] theorem State.nextDraw_DT (s : State) : (s.nextDraw).DT = s.DT := rfl
@[simp] theorem State.nextDraw_ST (s : State) : (s.nextDraw).ST = s.ST := rfl
@[simp] theorem State.nextDraw_key (s : State) : (s.nextDraw).key = s.key := rfl
@[simp] theorem State.nextDraw_FB (s : State) : (s.nextDraw).FB = s.FB := rfl
@[simp] theorem State.nextDraw_mem (s : State) : (s.nextDraw).mem = s.mem := rfl
@[simp] theorem State.nextDraw_tone (s : State) : (s.nextDraw).tone = s.tone := rfl
@[simp] theorem State.nextDraw_status (s : State) : (s.nextDraw).status = s.status := rfl
@[simp] theorem State.nextDraw_params (s : State) : (s.nextDraw).params = s.params := rfl
@[simp] theorem State.nextDraw_draws (s : State) : (s.nextDraw).draws = s.draws + 1 := rfl
@[simp] theorem State.nextDraw_reports (s : State) : (s.nextDraw).reports = s.reports := rfl
@[simp] theorem State.nextDraw_reg (s : State) (r : Reg) : (s.nextDraw).reg r = s.reg r := rfl
@[simp] theorem State.nextDraw_readByte (s : State) (a : Nat) : (s.nextDraw).readByte a = s.readByte a := rfl
@[simp] theorem State.nextDraw_memSize (s : State) : (s.nextDraw).memSize = s.memSize := State.memSize_congr rfl

/-! ### addReport -/

@[simp] theorem State.addReport_V (s : State) (e : Report) : (s.addReport e).V = s.V := rfl
@[simp] theorem State.addReport_I (s : State) (e : Report) : (s.addReport e).I = s.I := rfl
@[simp] theorem State.addReport_pc (s : State) (e : Report) : (s.addReport e).pc = s.pc := rfl
@[simp] theorem State.addReport_stack (s : State) (e : Report) : (s.addReport e).stack = s.stack := rfl
@[simp] theorem State.addReport_sp (s : State) (e : Report) : (s.addReport e).sp = s.sp := rfl
@[simp] theorem State.addReport_DT (s : State) (e : Report) : (s.addReport e).DT = s.DT := rfl
@[simp] theorem State.addReport_ST (s : State) (e : Report) : (s.addReport e).ST = s.ST := rfl
@[simp] theorem State.addReport_key (s : State) (e : Report) : (s.addReport e).key = s.key := rfl
@[simp] theorem State.addReport_FB (s : State) (e : Report) : (s.addReport e).FB = s.FB := rfl
@[simp] theorem State.addReport_mem (s : State) (e : Report) : (s.addReport e).mem = s.mem := rfl
@[simp] theorem State.addReport_tone (s : State) (e : Report) : (s.addReport e).tone = s.tone := rfl
@[simp] theorem State.addReport_status (s : State) (e : Report) : (s.addReport e).status = s.status := rfl
@[simp] theorem State.addReport_params (s : State) (e : Report) : (s.addReport e).params = s.params := rfl
@[simp] theorem State.addReport_draws (s : State) (e : Report) : (s.addReport e).draws = s.draws := rfl
@[simp] theorem State.addReport_reports (s : State) (e : Report) : (s.addReport e).reports = s.reports ++ [e] := rfl
@[simp] theorem State.addReport_reg (s : State) (e : Report) (r : Reg) : (s.addReport e).reg r = s.reg r := rfl
@[simp] theorem State.addReport_readByte (s : State) (e : Report) (a : Nat) : (s.addReport e).readByte a = s.readByte a := rfl
@[simp] theorem State.addReport_memSize (s : State) (e : Report) : (s.addReport e).memSize = s.memSize := State.memSize_congr rfl

/-! ### beginStep -/

@[simp] theorem State.beginStep_V (s : State) : (s.beginStep).V = s.V := rfl
@[simp] theorem State.beginStep_I (s : State) : (s.beginStep).I = s.I := rfl
@[simp] theorem State.beginStep_pc (s : State) : (s.beginStep).pc = s.pc := rfl
@[simp] theorem State.beginStep_stack (s : State) : (s.beginStep).stack = s.stack := rfl
@[simp] theorem State.beginStep_sp (s : State) : (s.beginStep).sp = s.sp := rfl
@[simp] theorem State.beginStep_DT (s : State) : (s.beginStep).DT = s.DT := rfl
@[simp] theorem State.beginStep_ST (s : State) : (s.beginStep).ST = s.ST := rfl
@[simp] theorem State.beginStep_key (s : State) : (s.beginStep).key = s.key := rfl
@[simp] theorem State.beginStep_FB (s : State) : (s.beginStep).FB = s.FB := rfl
@[simp] theorem State.beginStep_mem (s : State) : (s.beginStep).mem = s.mem := rfl
@[simp] theorem State.beginStep_tone (s : State) : (s.beginStep).tone = s.tone := rfl
@[simp] theorem State.beginStep_status (s : State) : (s.beginStep).status = s.status := rfl
@[simp] theorem State.beginStep_params (s : State) : (s.beginStep).params = s.params := rfl
@[simp] theorem State.beginStep_draws (s : State) : (s.beginStep).draws = s.draws := rfl
@[simp] theorem State.beginStep_reports (s : State) : (s.beginStep).reports = [] := rfl
@[simp] theorem State.beginStep_reg (s : State) (r : Reg) : (s.beginStep).reg r = s.reg r := rfl
@[simp] theorem State.beginStep_readByte (s : State) (a : Nat) : (s.beginStep).readByte a = s.readByte a := rfl
@[simp] theorem State.beginStep_memSize (s : State) : (s.beginStep).memSize = s.memSize := State.memSize_congr rfl

/-! ### tick -/

@[simp] theorem State.tick_V (s : State) : (s.tick).V = s.V := rfl
@[simp] theorem State.tick_I (s : State) : (s.tick).I = s.I := rfl
@[simp] theorem State.tick_pc (s : State) : (s.tick).pc = s.pc := rfl
@[simp] theorem State.tick_stack (s : State) : (s.tick).stack = s.stack := rfl
@[simp] theorem State.tick_sp (s : State) : (s.tick).sp = s.sp := rfl
@[simp] theorem State.tick_DT (s : State) : (s.tick).DT = countDown s.DT := rfl
@[simp] theorem State.tick_ST (s : State) : (s.tick).ST = countDown s.ST := rfl
@[simp] theorem State.tick_key (s : State) : (s.tick).key = s.key := rfl
@[simp] theorem State.tick_FB (s : State) : (s.tick).FB = s.FB := rfl
@[simp] theorem State.tick_mem (s : State) : (s.tick).mem = s.mem := rfl
@[simp] theorem State.tick_tone (s : State) : (s.tick).tone = decide (s.ST ≠ 0) := rfl
@[simp] theorem State.tick_status (s : State) : (s.tick).status = s.status := rfl
@[simp] theorem State.tick_params (s : State) : (s.tick).params = s.params := rfl
@[simp] theorem State.tick_draws (s : State) : (s.tick).draws = s.draws := rfl
@[simp] theorem State.tick_reports (s : State) : (s.tick).reports = s.reports := rfl
@[simp] theorem State.tick_reg (s : State) (r : Reg) : (s.tick).reg r = s.reg r := rfl
@[simp] theorem State.tick_readByte (s : State) (a : Nat) : (s.tick).readByte a = s.readByte a := rfl
@[simp] theorem State.tick_memSize (s : State) : (s.tick).memSize = s.memSize := State.memSize_congr rfl

/-! ### load -/

@[simp] theorem State.load_V (s : State) (b : List Byte) : (s.load b).V = s.V := rfl
@[simp] theorem State.load_I (s : State) (b : List Byte) : (s.load b).I = s.I := rfl
@[simp] theorem State.load_pc (s : State) (b : List Byte) : (s.load b).pc = s.pc := rfl
@[simp] theorem State.load_stack (s : State) (b : List Byte) : (s.load b).stack = s.stack := rfl
@[simp] theorem State.load_sp (s : State) (b : List Byte) : (s.load b).sp = s.sp := rfl
@[simp] theorem State.load_DT (s : State) (b : List Byte) : (s.load b).DT = s.DT := rfl
@[simp] theorem State.load_ST (s : State) (b : List Byte) : (s.load b).ST = s.ST := rfl
@[simp] theorem State.load_key (s : State) (b : List Byte) : (s.load b).key = s.key := rfl
@[simp] theorem State.load_FB (s : State) (b : List Byte) : (s.load b).FB = s.FB := rfl
@[simp] theorem State.load_mem (s : State) (b : List Byte) : (s.load b).mem = Memory.writeBytes s.mem Config.progStart b := rfl
@[simp] theorem State.load_tone (s : State) (b : List Byte) : (s.load b).tone = s.tone := rfl
@[simp] theorem State.load_status (s : State) (b : List Byte) : (s.load b).status = s.status := rfl
@[simp] theorem State.load_params (s : State) (b : List Byte) : (s.load b).params = s.params := rfl
@[simp] theorem State.load_draws (s : State) (b : List Byte) : (s.load b).draws = s.draws := rfl
@[simp] theorem State.load_reports (s : State) (b : List Byte) : (s.load b).reports = s.reports := rfl
@[simp] theorem State.load_reg (s : State) (b : List Byte) (r : Reg) : (s.load b).reg r = s.reg r := rfl
@[simp] theorem State.load_memSize (s : State) (b : List Byte) : (s.load b).memSize = s.memSize := State.memSize_congr rfl

/-! ### setKeys -/

@[simp] theorem State.setKeys_V (s : State) (k : BitVec 16) : (s.setKeys k).V = s.V := rfl
@[simp] theorem State.setKeys_I (s : State) (k : BitVec 16) : (s.setKeys k).I = s.I := rfl
@[simp] theorem State.setKeys_pc (s : State) (k : BitVec 16) : (s.setKeys k).pc = s.pc := rfl
@[simp] theorem State.setKeys_stack (s : State) (k : BitVec 16) : (s.setKeys k).stack = s.stack := rfl
@[simp] theorem State.setKeys_sp (s : State) (k : BitVec 16) : (s.setKeys k).sp = s.sp := rfl
@[simp] theorem State.setKeys_DT (s : State) (k : BitVec 16) : (s.setKeys k).DT = s.DT := rfl
@[simp] theorem State.setKeys_ST (s : State) (k : BitVec 16) : (s.setKeys k).ST = s.ST := rfl
@[simp] theorem State.setKeys_key (s : State) (k : BitVec 16) : (s.setKeys k).key = keysOf k := rfl
@[simp] theorem State.setKeys_FB (s : State) (k : BitVec 16) : (s.setKeys k).FB = s.FB := rfl
@[simp] theorem State.setKeys_mem (s : State) (k : BitVec 16) : (s.setKeys k).mem = s.mem := rfl
@[simp] theorem State.setKeys_tone (s : State) (k : BitVec 16) : (s.setKeys k).tone = s.tone := rfl
@[simp] theorem State.setKeys_status (s : State) (k : BitVec 16) : (s.setKeys k).status = s.status := rfl
@[simp] theorem State.setKeys_params (s : State) (k : BitVec 16) : (s.setKeys k).params = s.params := rfl
@[simp] theorem State.setKeys_draws (s : State) (k : BitVec 16) : (s.setKeys k).draws = s.draws := rfl
@[simp] theorem State.setKeys_reports (s : State) (k : BitVec 16) : (s.setKeys k).reports = s.reports := rfl
@[simp] theorem State.setKeys_reg (s : State) (k : BitVec 16) (r : Reg) : (s.setKeys k).reg r = s.reg r := rfl
@[simp] theorem State.setKeys_readByte (s : State) (k : BitVec 16) (a : Nat) : (s.setKeys k).readByte a = s.readByte a := rfl
@[simp] theorem State.setKeys_memSize (s : State) (k : BitVec 16) : (s.setKeys k).memSize = s.memSize := State.memSize_congr rfl

/-! ### Reading a register after a write -/

/-- Reading a register after a write: the value written there, every other register as before. -/
@[simp] theorem State.setReg_reg (s : State) (x r : Reg) (v : Byte) :
    (s.setReg x v).reg r = if r = x then v else s.reg r := by
  by_cases h : r = x
  · subst h; simp [State.reg, State.setReg]
  · have : x.val ≠ r.val := fun e => h (Fin.ext e.symm)
    simp [State.reg, State.setReg, this, h]

end Sys2Proof.Machine
end

