-- ==== Sys2Proof/Laws/Ops.lean ====
section
/-! SUPPORT. What each shared operation does, said once: ranges, byte lists, register lists, flags, fetch, keys. -/

namespace Sys2Proof.Machine

/-! ### Memory through the state -/

/-- Reading after storing a run of bytes. -/
theorem State.storeBytes_readByte (s : State) (a b : Nat) (bs : List Byte) :
    (s.storeBytes a bs).readByte b = if a ≤ b ∧ b < a + bs.length then bs.getD (b - a) 0 else s.readByte b :=
  Memory.read_writeBytes bs s.mem a b

@[simp] theorem State.readBytes_length (s : State) (a n : Nat) : (s.readBytes a n).length = n := by
  induction n generalizing a with
  | zero => rfl
  | succ n ih => simp [State.readBytes, ih]

/-- Byte `j` of a run of reads. -/
theorem State.readBytes_getElem (s : State) (a n j : Nat) (h : j < (s.readBytes a n).length) :
    (s.readBytes a n)[j] = s.readByte (a + j) := by
  induction n generalizing a j with
  | zero => simp at h
  | succ n ih =>
    cases j with
    | zero => simp [State.readBytes]
    | succ j => simp only [State.readBytes, List.getElem_cons_succ, ih]; congr 1; omega

/-- No address is out of range. -/
theorem State.firstOutOfRange_eq_none {s : State} {base len : Nat} :
    s.firstOutOfRange base len = none ↔ ∀ a, base ≤ a → a < base + len → a < s.memSize := by
  simp [State.firstOutOfRange, List.find?_eq_none, List.mem_range'_1]

/-- The address found is the lowest one out of range. -/
theorem State.firstOutOfRange_eq_some {s : State} {base len a : Nat} :
    s.firstOutOfRange base len = some a ↔
      base ≤ a ∧ a < base + len ∧ s.memSize ≤ a ∧ ∀ b, base ≤ b → b < a → b < s.memSize := by
  simp [State.firstOutOfRange, List.find?_range'_eq_some, List.mem_range'_1]
  tauto

/-- In range, the access goes on. -/
theorem State.ifInRange_of_inRange {s : State} {base len : Nat} (h : ∀ a, base ≤ a → a < base + len → a < s.memSize) (go : Result) :
    s.ifInRange base len go = go := by
  simp [State.ifInRange, State.firstOutOfRange_eq_none.2 h]

/-- With a lowest address out of range, it is the fault recorded. -/
theorem State.ifInRange_of_lowest {s : State} {base len a : Nat}
    (h : base ≤ a ∧ a < base + len ∧ s.memSize ≤ a ∧ ∀ b, base ≤ b → b < a → b < s.memSize) (go : Result) :
    s.ifInRange base len go = raise (.memOutOfBounds a) := by
  simp [State.ifInRange, State.firstOutOfRange_eq_some.2 h]

/-- An access that answers a next state was in range. -/
theorem State.ifInRange_eq_next {s t u : State} {base len : Nat} :
    s.ifInRange base len (.next u) = .next t ↔ (∀ a, base ≤ a → a < base + len → a < s.memSize) ∧ u = t := by
  unfold State.ifInRange
  cases h : s.firstOutOfRange base len with
  | none => have := State.firstOutOfRange_eq_none.1 h; simp; exact fun _ => this
  | some a =>
    obtain ⟨h1, h2, h3, -⟩ := State.firstOutOfRange_eq_some.1 h
    simp only [raise, reduceCtorEq, false_iff, not_and]
    intro hr; exact absurd (hr a h1 h2) (by omega)

/-- An access that faults recorded the lowest address out of range. -/
theorem State.ifInRange_eq_fault {s u : State} {base len : Nat} {f : Fault} :
    s.ifInRange base len (.next u) = .fault f ↔
      ∃ a, f = .fatal (.memOutOfBounds a) ∧ base ≤ a ∧ a < base + len ∧ s.memSize ≤ a ∧ ∀ b, base ≤ b → b < a → b < s.memSize := by
  unfold State.ifInRange
  cases h : s.firstOutOfRange base len with
  | none =>
    have hr := State.firstOutOfRange_eq_none.1 h
    simp only [reduceCtorEq, false_iff, not_exists, not_and]
    intro a _ h1 h2 h3; exact absurd (hr a h1 h2) (by omega)
  | some a =>
    have ha := State.firstOutOfRange_eq_some.1 h
    constructor
    · intro e; cases e; exact ⟨a, rfl, ha⟩
    · rintro ⟨b, rfl, hb⟩
      have : a = b := by
        rcases Nat.lt_trichotomy a b with hlt | e | hlt
        · exact absurd (hb.2.2.2 a ha.1 hlt) (by omega)
        · exact e
        · exact absurd (ha.2.2.2 b hb.1 hlt) (by omega)
      subst this; rfl

/-- An access is never refused. -/
theorem State.ifInRange_ne_refused {s u : State} {base len : Nat} {r : Refusal} :
    s.ifInRange base len (.next u) ≠ .refused r := by
  unfold State.ifInRange; split <;> simp [raise]

/-! ### Register lists -/

@[simp] theorem State.regsThrough_length (s : State) (x : Reg) : (s.regsThrough x).length = x.val + 1 := by
  simp [State.regsThrough]

/-- Byte `j` of a register dump is `V[j]`. -/
theorem State.regsThrough_getD (s : State) (x j : Reg) (h : j ≤ x) : (s.regsThrough x).getD j.val 0 = s.reg j := by
  have h1 := j.isLt
  have h2 : j.val < x.val + 1 := by have : j.val ≤ x.val := h; omega
  simp [State.regsThrough, List.getD, h2, State.reg]

/-- A register load writes `V` alone. -/
theorem State.loadRegs_eq (s : State) (base n : Nat) : s.loadRegs base n = { s with V := (s.loadRegs base n).V } := by
  induction n with
  | zero => rfl
  | succ n ih => rw [State.loadRegs, ih]; rfl

/-! The other fields after a register load. -/

@[simp] theorem State.loadRegs_I (s : State) (base n : Nat) : (s.loadRegs base n).I = s.I := by
  rw [State.loadRegs_eq]
@[simp] theorem State.loadRegs_pc (s : State) (base n : Nat) : (s.loadRegs base n).pc = s.pc := by
  rw [State.loadRegs_eq]
@[simp] theorem State.loadRegs_stack (s : State) (base n : Nat) : (s.loadRegs base n).stack = s.stack := by
  rw [State.loadRegs_eq]
@[simp] theorem State.loadRegs_sp (s : State) (base n : Nat) : (s.loadRegs base n).sp = s.sp := by
  rw [State.loadRegs_eq]
@[simp] theorem State.loadRegs_DT (s : State) (base n : Nat) : (s.loadRegs base n).DT = s.DT := by
  rw [State.loadRegs_eq]
@[simp] theorem State.loadRegs_ST (s : State) (base n : Nat) : (s.loadRegs base n).ST = s.ST := by
  rw [State.loadRegs_eq]
@[simp] theorem State.loadRegs_key (s : State) (base n : Nat) : (s.loadRegs base n).key = s.key := by
  rw [State.loadRegs_eq]
@[simp] theorem State.loadRegs_FB (s : State) (base n : Nat) : (s.loadRegs base n).FB = s.FB := by
  rw [State.loadRegs_eq]
@[simp] theorem State.loadRegs_mem (s : State) (base n : Nat) : (s.loadRegs base n).mem = s.mem := by
  rw [State.loadRegs_eq]
@[simp] theorem State.loadRegs_tone (s : State) (base n : Nat) : (s.loadRegs base n).tone = s.tone := by
  rw [State.loadRegs_eq]
@[simp] theorem State.loadRegs_status (s : State) (base n : Nat) : (s.loadRegs base n).status = s.status := by
  rw [State.loadRegs_eq]
@[simp] theorem State.loadRegs_params (s : State) (base n : Nat) : (s.loadRegs base n).params = s.params := by
  rw [State.loadRegs_eq]
@[simp] theorem State.loadRegs_draws (s : State) (base n : Nat) : (s.loadRegs base n).draws = s.draws := by
  rw [State.loadRegs_eq]
@[simp] theorem State.loadRegs_reports (s : State) (base n : Nat) : (s.loadRegs base n).reports = s.reports := by
  rw [State.loadRegs_eq]

/-- A register load: `V[j]` is the byte at `base + j` for the registers loaded, the rest as before. -/
theorem State.loadRegs_reg (s : State) (base n : Nat) (hn : n ≤ 16) (j : Reg) :
    (s.loadRegs base n).reg j = if j.val < n then s.readByte (base + j.val) else s.reg j := by
  induction n with
  | zero => simp [State.loadRegs]
  | succ n ih =>
    have hf : (Fin.ofNat 16 n : Fin 16).val = n := by simp [Fin.ofNat]; omega
    rw [State.loadRegs, State.setReg_reg, ih (by omega)]
    by_cases hj : j = Fin.ofNat 16 n
    · have : j.val = n := by rw [hj, hf]
      rw [if_pos hj, if_pos (by omega), this]
    · have : j.val ≠ n := fun e => hj (Fin.ext (by rw [e, hf]))
      simp only [hj, if_false]
      by_cases h : j.val < n
      · have : j.val < n + 1 := by omega
        simp [h, this]
      · have : ¬ j.val < n + 1 := by omega
        simp [h, this]

/-! ### Flags -/

/-- Result and flag write `V` alone. -/
theorem State.writeResultAndFlag_eq (s : State) (x : Reg) (v f : Byte) :
    s.writeResultAndFlag x v f = { s with V := (s.writeResultAndFlag x v f).V } := by
  unfold State.writeResultAndFlag; split <;> rfl

/-! The other fields after result and flag. -/

@[simp] theorem State.writeResultAndFlag_I (s : State) (x : Reg) (v f : Byte) : (s.writeResultAndFlag x v f).I = s.I := by
  rw [State.writeResultAndFlag_eq]
@[simp] theorem State.writeResultAndFlag_pc (s : State) (x : Reg) (v f : Byte) : (s.writeResultAndFlag x v f).pc = s.pc := by
  rw [State.writeResultAndFlag_eq]
@[simp] theorem State.writeResultAndFlag_stack (s : State) (x : Reg) (v f : Byte) : (s.writeResultAndFlag x v f).stack = s.stack := by
  rw [State.writeResultAndFlag_eq]
@[simp] theorem State.writeResultAndFlag_sp (s : State) (x : Reg) (v f : Byte) : (s.writeResultAndFlag x v f).sp = s.sp := by
  rw [State.writeResultAndFlag_eq]
@[simp] theorem State.writeResultAndFlag_DT (s : State) (x : Reg) (v f : Byte) : (s.writeResultAndFlag x v f).DT = s.DT := by
  rw [State.writeResultAndFlag_eq]
@[simp] theorem State.writeResultAndFlag_ST (s : State) (x : Reg) (v f : Byte) : (s.writeResultAndFlag x v f).ST = s.ST := by
  rw [State.writeResultAndFlag_eq]
@[simp] theorem State.writeResultAndFlag_key (s : State) (x : Reg) (v f : Byte) : (s.writeResultAndFlag x v f).key = s.key := by
  rw [State.writeResultAndFlag_eq]
@[simp] theorem State.writeResultAndFlag_FB (s : State) (x : Reg) (v f : Byte) : (s.writeResultAndFlag x v f).FB = s.FB := by
  rw [State.writeResultAndFlag_eq]
@[simp] theorem State.writeResultAndFlag_mem (s : State) (x : Reg) (v f : Byte) : (s.writeResultAndFlag x v f).mem = s.mem := by
  rw [State.writeResultAndFlag_eq]
@[simp] theorem State.writeResultAndFlag_tone (s : State) (x : Reg) (v f : Byte) : (s.writeResultAndFlag x v f).tone = s.tone := by
  rw [State.writeResultAndFlag_eq]
@[simp] theorem State.writeResultAndFlag_status (s : State) (x : Reg) (v f : Byte) : (s.writeResultAndFlag x v f).status = s.status := by
  rw [State.writeResultAndFlag_eq]
@[simp] theorem State.writeResultAndFlag_params (s : State) (x : Reg) (v f : Byte) : (s.writeResultAndFlag x v f).params = s.params := by
  rw [State.writeResultAndFlag_eq]
@[simp] theorem State.writeResultAndFlag_draws (s : State) (x : Reg) (v f : Byte) : (s.writeResultAndFlag x v f).draws = s.draws := by
  rw [State.writeResultAndFlag_eq]
@[simp] theorem State.writeResultAndFlag_reports (s : State) (x : Reg) (v f : Byte) : (s.writeResultAndFlag x v f).reports = s.reports := by
  rw [State.writeResultAndFlag_eq]

/-- What each register holds after the two writes, in either order (R146). -/
theorem State.writeResultAndFlag_reg (s : State) (x r : Reg) (v f : Byte) :
    (s.writeResultAndFlag x v f).reg r =
      if r = x ∧ (x ≠ VF ∨ s.params.arithFlagOrder = .resultLast) then v else if r = VF then f else s.reg r := by
  unfold State.writeResultAndFlag
  cases h : s.params.arithFlagOrder <;> by_cases hx : r = x <;> by_cases hv : r = VF <;> simp_all

/-- `V[x]` holds the result, unless the flag was written over it. -/
theorem State.writeResultAndFlag_result (s : State) (x : Reg) (v f : Byte) (h : x ≠ VF ∨ s.params.arithFlagOrder = .resultLast) :
    (s.writeResultAndFlag x v f).reg x = v := by
  rw [State.writeResultAndFlag_reg, if_pos ⟨rfl, h⟩]

/-- `VF` holds the flag, unless the result was written over it. -/
theorem State.writeResultAndFlag_flag (s : State) (x : Reg) (v f : Byte) (h : x ≠ VF ∨ s.params.arithFlagOrder = .flagLast) :
    (s.writeResultAndFlag x v f).reg VF = f := by
  rw [State.writeResultAndFlag_reg, if_neg, if_pos rfl]
  rintro ⟨rfl, h'⟩
  rcases h with h | h
  · exact h rfl
  · rcases h' with h' | h'
    · exact h' rfl
    · rw [h] at h'; exact Config.ArithFlagOrder.noConfusion h'

/-- Every other register is as before. -/
theorem State.writeResultAndFlag_other (s : State) (x r : Reg) (v f : Byte) (hx : r ≠ x) (hf : r ≠ VF) :
    (s.writeResultAndFlag x v f).reg r = s.reg r := by
  rw [State.writeResultAndFlag_reg, if_neg (fun h => hx h.1), if_neg hf]

theorem carryFlag_toNat (a b : Byte) : (carryFlag a b).toNat = if a.toNat + b.toNat > 255 then 1 else 0 := by
  simp only [carryFlag, flag, decide_eq_true_eq]; split <;> rfl

theorem notBorrowFlag_toNat (a b : Byte) : (notBorrowFlag a b).toNat = if a.toNat ≥ b.toNat then 1 else 0 := by
  simp only [notBorrowFlag, flag, decide_eq_true_eq]; split <;> rfl

theorem shrFlag_toNat (v : Byte) : (shrFlag v).toNat = v.toNat % 2 := by simp [shrFlag]

/-- `ShlFlag` as a number (R151). -/
theorem shlFlag_toNat (m : Config.ShlFlag) (v : Byte) : (shlFlag m v).toNat =
    match m with
    | .bit3    => v.toNat / 8 % 2
    | .bit3Raw => v.toNat / 8 % 2 * 8
    | .bit7    => v.toNat / 128 := by
  revert v; cases m <;> decide +kernel

/-! ### Fetch and keys -/

theorem State.fetch_eq_some {s : State} {w : Word} :
    s.fetch = some w ↔ s.pc.toNat + 1 < s.memSize ∧
      w.toNat = (s.readByte s.pc.toNat).toNat * 256 + (s.readByte (s.pc.toNat + 1)).toNat := by
  have h1 := (s.readByte s.pc.toNat).isLt
  have h2 := (s.readByte (s.pc.toNat + 1)).isLt
  unfold State.fetch
  split
  · rename_i h; simp only [reduceCtorEq, false_iff, not_and]; omega
  · rename_i h
    rw [Option.some_inj, ← BitVec.toNat_inj]
    simp only [wordOfBytes, BitVec.toNat_ofNat]
    rw [Nat.mod_eq_of_lt (by omega)]
    constructor
    · intro e; exact ⟨by omega, e.symm⟩
    · intro e; exact e.2.symm

theorem State.fetch_eq_none {s : State} : s.fetch = none ↔ s.memSize ≤ s.pc.toNat + 1 := by
  unfold State.fetch; split <;> simp_all

theorem State.lowestPressed_eq_none {s : State} : s.lowestPressed = none ↔ ∀ k : Fin 16, s.key[k] = false := by
  simp [State.lowestPressed, List.find?_eq_none]

/-- The key found is pressed, and no lower key is. -/
theorem State.lowestPressed_eq_some {s : State} {k : Fin 16} :
    s.lowestPressed = some k ↔ s.key[k] = true ∧ ∀ j : Fin 16, j < k → s.key[j] = false := by
  unfold State.lowestPressed
  rw [List.find?_eq_some_iff_getElem]
  constructor
  · rintro ⟨h, i, hi, e, hj⟩
    simp only [List.getElem_finRange] at e hj
    refine ⟨h, fun j hjk => ?_⟩
    have hv : k.val = i := by rw [← e]; rfl
    have := hj j.val (by have : j.val < k.val := hjk; omega)
    simpa using this
  · rintro ⟨h, hj⟩
    refine ⟨h, k.val, by simp, by simp, fun j hjk => ?_⟩
    have := hj ⟨j, by omega⟩ (by show j < k.val; omega)
    simpa using this

theorem keyIndex_eq_some {v : Byte} {k : Fin 16} : keyIndex v = some k ↔ v.toNat = k.val := by
  have := k.isLt
  unfold keyIndex
  split
  · rw [Option.some_inj, Fin.ext_iff]
  · simp; omega

theorem keyIndex_eq_none {v : Byte} : keyIndex v = none ↔ 15 < v.toNat := by
  unfold keyIndex; split <;> simp <;> omega

/-! What the reads and the range check depend on. -/

theorem State.readBytes_congr {s t : State} (h : t.mem = s.mem) : ∀ a n, t.readBytes a n = s.readBytes a n
  | _, 0 => rfl
  | a, n + 1 => by simp only [State.readBytes, State.readByte, h, State.readBytes_congr h (a + 1) n]

theorem State.loadRegs_congr {s t : State} (hm : t.mem = s.mem) (hv : t.V = s.V) (a n : Nat) :
    (t.loadRegs a n).V = (s.loadRegs a n).V := by
  induction n with
  | zero => exact hv
  | succ n ih => simp only [State.loadRegs, State.setReg, ih, State.readByte, hm]

theorem State.firstOutOfRange_congr {s t : State} (h : t.params = s.params) (base len : Nat) :
    t.firstOutOfRange base len = s.firstOutOfRange base len := by
  have hm : t.memSize = s.memSize := by unfold State.memSize; rw [h]
  simp only [State.firstOutOfRange, hm]

end Sys2Proof.Machine
end

