-- ==== Sys2Proof/Laws/Display.lean ====
section
/-! SUPPORT. The draw loop in closed form: which cells a sprite covers, that exactly those are inverted, and when the draw collides (R191 to R193). -/

namespace Sys2Proof.Machine

/-- Reading a cell after setting one. -/
theorem Framebuffer.cell_setCell (fb : Framebuffer) (px p : Fin 64) (py q : Fin 32) (b : Bool) :
    Framebuffer.cell (fb.setCell px py b) p q = if p = px ∧ q = py then b else Framebuffer.cell fb p q := by
  unfold Framebuffer.cell Framebuffer.setCell
  by_cases hq : q = py
  · subst hq
    by_cases hp : p = px
    · subst hp; simp
    · have : px.val ≠ p.val := fun e => hp (Fin.ext e.symm)
      simp [this, hp]
  · have : py.val ≠ q.val := fun e => hq (Fin.ext e.symm)
    simp [this, hq]

/-- Two pictures with the same cells are the same. -/
theorem Framebuffer.ext {f g : Framebuffer} (h : ∀ px py, Framebuffer.cell f px py = Framebuffer.cell g px py) : f = g := by
  apply Vector.ext; intro y hy
  apply Vector.ext; intro x hx
  exact h ⟨x, hx⟩ ⟨y, hy⟩

@[simp] theorem Framebuffer.cell_blank (px : Fin 64) (py : Fin 32) : Framebuffer.cell .blank px py = false := by
  simp [Framebuffer.cell, Framebuffer.blank]

/-- The sprite bit at column offset `c` is bit `7 - c` (R193). -/
theorem spriteBit_eq (row : Byte) (c : Nat) : spriteBit row c = row.getLsbD (7 - c) := by
  simp [spriteBit, BitVec.getLsbD, Nat.testBit_eq_decide_div_mod_eq]

/-! ### Coverage -/

/-- A sprite row drawn on row `py` has a 1 bit on the cell. -/
def rowCovers (cx : Byte) (py : Fin 32) (row : Byte) (p : Fin 64) (q : Fin 32) : Bool :=
  decide (q = py) && (List.range 8).any (fun c => spriteBit row c && decide (p = pixelColumn cx c))

/-- One of the sprite rows from row `r` on has a 1 bit on the cell. -/
def rowsCover (cx cy : Byte) : Nat → List Byte → Fin 64 → Fin 32 → Bool
  | _, [], _, _ => false
  | r, row :: rows, p, q => rowCovers cx (pixelRow cy r) row p q || rowsCover cx cy (r + 1) rows p q

theorem rowCovers_iff {cx : Byte} {py : Fin 32} {row : Byte} {p : Fin 64} {q : Fin 32} :
    rowCovers cx py row p q = true ↔ q = py ∧ ∃ c < 8, spriteBit row c = true ∧ p = pixelColumn cx c := by
  simp [rowCovers]

theorem rowsCover_iff {cx cy : Byte} {rows : List Byte} : ∀ {r : Nat} {p : Fin 64} {q : Fin 32},
    rowsCover cx cy r rows p q = true ↔ ∃ i, ∃ h : i < rows.length, ∃ c < 8,
      spriteBit rows[i] c = true ∧ p = pixelColumn cx c ∧ q = pixelRow cy (r + i) := by
  induction rows with
  | nil => simp [rowsCover]
  | cons row rows ih =>
    intro r p q
    rw [rowsCover, Bool.or_eq_true, rowCovers_iff, ih]
    constructor
    · rintro (⟨hq, c, hc, hb, hp⟩ | ⟨i, h, c, hc, hb, hp, hq⟩)
      · exact ⟨0, by simp, c, hc, hb, hp, hq⟩
      · exact ⟨i + 1, by simpa using h, c, hc, by simpa using hb, hp, by rw [hq]; congr 1; omega⟩
    · rintro ⟨i, h, c, hc, hb, hp, hq⟩
      cases i with
      | zero => exact .inl ⟨hq, c, hc, hb, hp⟩
      | succ i => exact .inr ⟨i, by simpa using h, c, hc, by simpa using hb, hp, by rw [hq]; congr 1; omega⟩

/-! ### The loop -/

theorem drawPixel_cell (px p : Fin 64) (py q : Fin 32) (b : Bool) (d : Drawing) :
    Framebuffer.cell (drawPixel px py b d).fb p q = (Framebuffer.cell d.fb p q ^^ (b && decide (p = px ∧ q = py))) := by
  cases b
  · simp [drawPixel]
  · by_cases h : p = px ∧ q = py
    · obtain ⟨rfl, rfl⟩ := h; simp [drawPixel, Framebuffer.cell_setCell]
    · simp [drawPixel, Framebuffer.cell_setCell, h]

theorem drawPixel_hit (px : Fin 64) (py : Fin 32) (b : Bool) (d : Drawing) :
    (drawPixel px py b d).hit = (d.hit || (b && Framebuffer.cell d.fb px py)) := by
  cases b <;> simp [drawPixel]

/-- The pixels of a row drawn so far. -/
theorem drawRow_prefix (cx : Byte) (py : Fin 32) (row : Byte) (d : Drawing) (m : Nat) (hm : m ≤ 64) :
    let e := (List.range m).foldl (fun d c => drawPixel (pixelColumn cx c) py (spriteBit row c) d) d
    (∀ p q, Framebuffer.cell e.fb p q = (Framebuffer.cell d.fb p q ^^
      (decide (q = py) && (List.range m).any (fun c => spriteBit row c && decide (p = pixelColumn cx c))))) ∧
    (e.hit = true ↔ d.hit = true ∨ ∃ c < m, spriteBit row c = true ∧ Framebuffer.cell d.fb (pixelColumn cx c) py = true) := by
  induction m with
  | zero => simp
  | succ m ih =>
    obtain ⟨ihc, ihh⟩ := ih (by omega)
    have hfresh : (List.range m).any (fun c => spriteBit row c && decide (pixelColumn cx m = pixelColumn cx c)) = false := by
      simp only [List.any_eq_false, List.mem_range, Bool.and_eq_true, decide_eq_true_eq, not_and]
      intro c hc _ he
      have := congrArg Fin.val he
      simp only [pixelColumn, Fin.ofNat] at this
      omega
    simp only [List.range_succ, List.foldl_append, List.foldl_cons, List.foldl_nil, List.any_append, List.any_cons,
      List.any_nil, Bool.or_false]
    constructor
    · intro p q
      rw [drawPixel_cell, ihc]
      by_cases hp : p = pixelColumn cx m
      · subst hp; rw [hfresh]
        by_cases hq : q = py <;> cases hb : spriteBit row m <;> simp [hq]
      · by_cases hq : q = py <;> simp [hp, hq]
    · rw [drawPixel_hit, Bool.or_eq_true, ihh, ihc, hfresh]
      simp only [decide_true, Bool.and_false, Bool.xor_false, Bool.and_eq_true]
      constructor
      · rintro ((h | ⟨c, hc, h⟩) | h)
        · exact .inl h
        · exact .inr ⟨c, by omega, h⟩
        · exact .inr ⟨m, by omega, h⟩
      · rintro (h | ⟨c, hc, h⟩)
        · exact .inl (.inl h)
        · rcases Nat.lt_succ_iff_lt_or_eq.1 hc with hc | rfl
          · exact .inl (.inr ⟨c, hc, h⟩)
          · exact .inr h

/-- One sprite row inverts the cells it covers. -/
theorem drawRow_cell (cx : Byte) (py : Fin 32) (row : Byte) (d : Drawing) (p : Fin 64) (q : Fin 32) :
    Framebuffer.cell (drawRow cx py row d).fb p q = (Framebuffer.cell d.fb p q ^^ rowCovers cx py row p q) :=
  (drawRow_prefix cx py row d 8 (by omega)).1 p q

/-- One sprite row collides where it covers a lit cell. -/
theorem drawRow_hit (cx : Byte) (py : Fin 32) (row : Byte) (d : Drawing) :
    (drawRow cx py row d).hit = true ↔
      d.hit = true ∨ ∃ p q, rowCovers cx py row p q = true ∧ Framebuffer.cell d.fb p q = true := by
  rw [drawRow, (drawRow_prefix cx py row d 8 (by omega)).2]
  simp only [rowCovers_iff]
  constructor
  · rintro (h | ⟨c, hc, hb, h⟩)
    · exact .inl h
    · exact .inr ⟨_, _, ⟨rfl, c, hc, hb, rfl⟩, h⟩
  · rintro (h | ⟨p, q, ⟨rfl, c, hc, hb, rfl⟩, h⟩)
    · exact .inl h
    · exact .inr ⟨c, hc, hb, h⟩

theorem pixelRow_inj {cy : Byte} {r r' : Nat} (h : r < r' ∧ r' < r + 32) : pixelRow cy r ≠ pixelRow cy r' := by
  intro he
  have := congrArg Fin.val he
  simp only [pixelRow, Fin.ofNat] at this
  omega

/-- Rows below 32 in number fall on distinct rows of the picture. -/
theorem rowsCover_later (cx cy : Byte) (r r' : Nat) (rows : List Byte) (p : Fin 64) (h : r < r' ∧ r' + rows.length ≤ r + 32) :
    rowsCover cx cy r' rows p (pixelRow cy r) = false := by
  rw [Bool.eq_false_iff, ne_eq, rowsCover_iff]
  rintro ⟨i, hi, c, _, _, _, hq⟩
  exact pixelRow_inj ⟨by omega, by omega⟩ hq

/-- A draw inverts exactly the cells the sprite covers. -/
theorem drawRows_cell (cx cy : Byte) (rows : List Byte) : ∀ (r : Nat) (d : Drawing) (p : Fin 64) (q : Fin 32), rows.length ≤ 32 →
    Framebuffer.cell (drawRows cx cy r rows d).fb p q = (Framebuffer.cell d.fb p q ^^ rowsCover cx cy r rows p q) := by
  induction rows with
  | nil => intro r d p q _; simp [drawRows, rowsCover]
  | cons row rows ih =>
    intro r d p q h
    simp only [List.length_cons] at h
    rw [drawRows, ih _ _ _ _ (by omega), drawRow_cell, rowsCover]
    by_cases hc : rowCovers cx (pixelRow cy r) row p q = true
    · have hq := (rowCovers_iff.1 hc).1
      rw [hq, rowsCover_later cx cy r (r + 1) rows p ⟨by omega, by omega⟩]; simp
    · rw [Bool.not_eq_true] at hc; rw [hc]; simp

/-- A draw collides exactly when the sprite covers a cell that was lit before it. -/
theorem drawRows_hit (cx cy : Byte) (rows : List Byte) : ∀ (r : Nat) (d : Drawing), rows.length ≤ 32 →
    ((drawRows cx cy r rows d).hit = true ↔
      d.hit = true ∨ ∃ p q, rowsCover cx cy r rows p q = true ∧ Framebuffer.cell d.fb p q = true) := by
  induction rows with
  | nil => intro r d _; simp [drawRows, rowsCover]
  | cons row rows ih =>
    intro r d h
    simp only [List.length_cons] at h
    rw [drawRows, ih _ _ (by omega), drawRow_hit]
    have hrow : ∀ p q, rowsCover cx cy (r + 1) rows p q = true → rowCovers cx (pixelRow cy r) row p q = false := by
      intro p q hl
      rw [Bool.eq_false_iff]; intro hc
      rw [(rowCovers_iff.1 hc).1, rowsCover_later cx cy r (r + 1) rows p ⟨by omega, by omega⟩] at hl
      exact Bool.noConfusion hl
    constructor
    · rintro ((h | ⟨p, q, hc, hl⟩) | ⟨p, q, hc, hl⟩)
      · exact .inl h
      · exact .inr ⟨p, q, by simp [rowsCover, hc], hl⟩
      · rw [drawRow_cell, hrow p q hc, Bool.xor_false] at hl
        exact .inr ⟨p, q, by simp [rowsCover, hc], hl⟩
    · rintro (h | ⟨p, q, hc, hl⟩)
      · exact .inl (.inl h)
      · rw [rowsCover, Bool.or_eq_true] at hc
        rcases hc with hc | hc
        · exact .inl (.inr ⟨p, q, hc, hl⟩)
        · exact .inr ⟨p, q, hc, by rw [drawRow_cell, hrow p q hc, Bool.xor_false]; exact hl⟩

end Sys2Proof.Machine
end

