-- ==== Sys2Proof/Laws/Step.lean ====
section
/-! SUPPORT. What one step can do: halted, fetch fault, unrecognized word, or the decoded instruction (R100). -/

namespace Sys2Proof.Machine

/-- A running machine whose word decodes runs the instruction. -/
theorem step_instr {s : State} {w : Word} {i : Instr} (hr : s.status = .running) (hf : s.fetch = some w)
    (hd : decode s.params w = .instr i) : step s = exec i s.beginStep := by
  unfold step; simp only [hr, hf, hd]

/-- A running machine whose word does not decode reports and advances. -/
theorem step_unrecognized {s : State} {w : Word} {why : Unrecognized} (hr : s.status = .running) (hf : s.fetch = some w)
    (hd : decode s.params w = .unrecognized why) : step s = execUnrecognized w s.beginStep := by
  unfold step; simp only [hr, hf, hd]

/-- A running machine outside memory faults at the fetch. -/
theorem step_fetchFault {s : State} (hr : s.status = .running) (hf : s.fetch = none) :
    step s = raise (.fetchOutOfBounds s.pc) := by
  unfold step; simp only [hr, hf]

/-- A halted machine stops. -/
theorem step_halted {s : State} {r : HaltReason} (h : s.status = .halted r) : step s = .fault (.halted r) := by
  unfold step; simp only [h]

/-- Every step is one of the four cases. -/
theorem step_cases (s : State) :
    (∃ r, s.status = .halted r ∧ step s = .fault (.halted r)) ∨
    (s.status = .running ∧ s.fetch = none ∧ step s = raise (.fetchOutOfBounds s.pc)) ∨
    (∃ w why, s.status = .running ∧ s.fetch = some w ∧ decode s.params w = .unrecognized why ∧
      step s = execUnrecognized w s.beginStep) ∨
    (∃ w i, s.status = .running ∧ s.fetch = some w ∧ decode s.params w = .instr i ∧ step s = exec i s.beginStep) := by
  cases hs : s.status with
  | halted r => exact .inl ⟨r, rfl, step_halted hs⟩
  | running =>
    cases hf : s.fetch with
    | none => exact .inr (.inl ⟨rfl, rfl, step_fetchFault hs hf⟩)
    | some w =>
      cases hd : decode s.params w with
      | unrecognized why => exact .inr (.inr (.inl ⟨w, why, rfl, rfl, hd, step_unrecognized hs hf hd⟩))
      | instr i => exact .inr (.inr (.inr ⟨w, i, rfl, rfl, hd, step_instr hs hf hd⟩))

/-- A run goes on from the next state of its first step. -/
theorem core_run_succ {s t : State} (h : step s = .next t) (n : Nat) : core.run (n + 1) s = core.run n t := by
  have h' : core.step s = .next t := h
  simp only [Host.Core.run, h']

end Sys2Proof.Machine
end

