-- ==== Sys2Proof/Laws/Transactions.lean ====
section
/-! SUPPORT. The host's transactions: what each body does, and the cases of one transaction (R8). -/

namespace Sys2Proof.Machine

/-- A tick lowers a timer by one, floored at 0 (R250). -/
theorem countDown_toNat (t : Byte) : (countDown t).toNat = t.toNat - 1 := by
  have := t.isLt
  unfold countDown; split
  · rw [BitVec.toNat_sub]; simp; omega
  · omega

/-- Key `j` after `SetKeys` is bit `j` (R256). -/
theorem keysOf_getElem (k : BitVec 16) (j : Fin 16) : (keysOf k)[j] = k.getLsbD j.val := by
  fin_cases j <;> rfl

theorem State.imageFits_iff {s : State} {image : List Byte} : s.imageFits image = true ↔ 0x200 + image.length ≤ s.memSize := by
  unfold State.imageFits; rw [decide_eq_true_eq]; rfl

/-- A byte of memory after a load (R276). -/
theorem State.load_readByte (s : State) (image : List Byte) (a : Nat) :
    (s.load image).readByte a = if 0x200 ≤ a ∧ a < 0x200 + image.length then image.getD (a - 0x200) 0 else s.readByte a :=
  State.storeBytes_readByte s 0x200 a image

/-- A byte of memory at creation (R34, R272). -/
theorem State.create_readByte (p : Config.Params) (h : p.wf = true) (a : Nat) :
    (State.create p).readByte a = p.fontPreload.getD a 0 := by
  have hl : p.fontPreload.length ≤ 0x200 := by unfold Config.Params.wf at h; exact of_decide_eq_true h
  have ht : p.fontPreload.take Config.progStart = p.fontPreload := List.take_of_length_le hl
  show Memory.read (Memory.writeBytes [] 0 (p.fontPreload.take Config.progStart)) a = _
  rw [ht, Memory.read_writeBytes]
  split
  · rw [Nat.sub_zero]
  · rename_i hn
    have : p.fontPreload.length ≤ a := by omega
    simp [Memory.read, Memory.unlisted, List.getD, this]

/-! A fatal step halts the machine with its reason and keeps the configuration (R231). -/

@[simp] theorem State.halt_status (s free : State) (r : HaltReason) : (s.halt free r).status = .halted r := rfl

@[simp] theorem State.halt_params (s free : State) (r : HaltReason) : (s.halt free r).params = s.params := rfl

/-- Every transaction that takes place is one of these. -/
theorem transact_cases {free s t : State} {a : Transaction} {r : Reply} (h : transact free a s = some (t, r)) :
    t = s ∨
    (s.status = .running ∧ a = .step ∧ step s = .next t) ∨
    (∃ why, s.status = .running ∧ a = .step ∧ step s = .fault (.fatal why) ∧ t = s.halt free why) ∨
    (s.status = .running ∧ a = .tick ∧ t = s.tick) ∨
    (∃ image, s.status = .running ∧ a = .loadImage image ∧ 0x200 + image.length ≤ s.memSize ∧ t = s.load image) ∨
    (∃ k, s.status = .running ∧ a = .setKeys k ∧ t = s.setKeys k) := by
  cases hs : s.status with
  | halted why => cases a <;> simp only [transact, hs] at h <;> cases h <;> exact .inl rfl
  | running =>
    cases a with
    | step =>
      simp only [transact, hs, stepTransaction] at h
      cases hst : step s with
      | next u => rw [hst] at h; cases h; exact .inr (.inl ⟨rfl, rfl, rfl⟩)
      | fault f =>
        rw [hst] at h
        cases f with
        | fatal why => cases h; exact .inr (.inr (.inl ⟨why, rfl, rfl, rfl, rfl⟩))
        | halted why => cases h
      | refused f => rw [hst] at h; cases h
    | tick => simp only [transact, hs] at h; cases h; exact .inr (.inr (.inr (.inl ⟨rfl, rfl, rfl⟩)))
    | loadImage image =>
      simp only [transact, hs] at h
      split at h
      · rename_i hf; cases h; exact .inr (.inr (.inr (.inr (.inl ⟨image, rfl, rfl, State.imageFits_iff.1 hf, rfl⟩))))
      · cases h; exact .inl rfl
    | setKeys k => simp only [transact, hs] at h; cases h; exact .inr (.inr (.inr (.inr (.inr ⟨k, rfl, rfl, rfl⟩))))
    | readFramebuffer => simp only [transact] at h; cases h; exact .inl rfl
    | readTone => simp only [transact] at h; cases h; exact .inl rfl
    | readKeys => simp only [transact] at h; cases h; exact .inl rfl

end Sys2Proof.Machine
end

