-- ==== Sys2Proof/Laws/Exec.lean ====
section
/-! SUPPORT. What executing any instruction can do to the elements the invariant is about. -/

namespace Sys2Proof.Machine

/-- The configuration and the halt state are no instruction's to write (R5, R231). -/
theorem exec_params_status {i : Instr} {s t : State} (h : exec i s = .next t) :
    t.params = s.params ∧ t.status = s.status := by
  cases i
  case ret => simp only [exec, execRet] at h; split at h <;> cases h <;> exact ⟨rfl, rfl⟩
  case callAddr nnn =>
    simp only [exec, execCallAddr] at h
    split at h
    · cases h; exact ⟨rfl, rfl⟩
    · split at h <;> cases h <;> exact ⟨rfl, rfl⟩
  case ldVxK x => simp only [exec, execLdVxK] at h; split at h <;> cases h <;> exact ⟨rfl, rfl⟩
  case skpVx x => simp only [exec, execSkpVx, State.skipOnKey] at h; split at h <;> cases h; exact ⟨rfl, rfl⟩
  case sknpVx x => simp only [exec, execSknpVx, State.skipOnKey] at h; split at h <;> cases h; exact ⟨rfl, rfl⟩
  case ldBVx x => obtain ⟨-, rfl⟩ := State.ifInRange_eq_next.1 h; exact ⟨rfl, rfl⟩
  case ldMemVx x => obtain ⟨-, rfl⟩ := State.ifInRange_eq_next.1 h; exact ⟨rfl, rfl⟩
  case ldVxMem x => obtain ⟨-, rfl⟩ := State.ifInRange_eq_next.1 h; simp
  case drw x y n => obtain ⟨-, rfl⟩ := State.ifInRange_eq_next.1 h; exact ⟨rfl, rfl⟩
  all_goals cases h; simp

/-- Memory changes only by a store of bytes that all lie in the array (R52, R53). -/
theorem exec_mem {i : Instr} {s t : State} (h : exec i s = .next t) :
    t.mem = s.mem ∨ ∃ bs, s.I.toNat + bs.length ≤ s.memSize ∧ t.mem = Memory.writeBytes s.mem s.I.toNat bs := by
  cases i
  case ret => simp only [exec, execRet] at h; split at h <;> cases h <;> exact .inl rfl
  case callAddr nnn =>
    simp only [exec, execCallAddr] at h
    split at h
    · cases h; exact .inl rfl
    · split at h <;> cases h <;> exact .inl rfl
  case ldVxK x => simp only [exec, execLdVxK] at h; split at h <;> cases h <;> exact .inl rfl
  case skpVx x => simp only [exec, execSkpVx, State.skipOnKey] at h; split at h <;> cases h; exact .inl rfl
  case sknpVx x => simp only [exec, execSknpVx, State.skipOnKey] at h; split at h <;> cases h; exact .inl rfl
  case ldBVx x =>
    obtain ⟨hr, rfl⟩ := State.ifInRange_eq_next.1 h
    refine .inr ⟨bcdDigits (s.reg x), ?_, rfl⟩
    have := hr (s.I.toNat + 2) (by simp [State.effAddr]) (by simp [State.effAddr])
    simp only [bcdDigits, List.length_cons, List.length_nil]; omega
  case ldMemVx x =>
    obtain ⟨hr, rfl⟩ := State.ifInRange_eq_next.1 h
    refine .inr ⟨s.regsThrough x, ?_, rfl⟩
    have := hr (s.I.toNat + x.val) (by simp [State.effAddr]) (by simp [State.effAddr])
    rw [State.regsThrough_length]; omega
  case ldVxMem x => obtain ⟨-, rfl⟩ := State.ifInRange_eq_next.1 h; simp
  case drw x y n => obtain ⟨-, rfl⟩ := State.ifInRange_eq_next.1 h; exact .inl rfl
  all_goals cases h; simp

/-- The reports an instruction appends: `RET` on an empty stack, `CALL` on a full one (R232). -/
def instrReports (s : State) : Instr → List Report
  | .ret => if s.sp.val = 0 then [.stackUnderflow s.pc] else []
  | .callAddr _ => if s.sp.val = 16 then [.stackOverflow s.pc] else []
  | _ => []

/-- An instruction appends its reports and no other. -/
theorem exec_reports {i : Instr} {s t : State} (h : exec i s = .next t) : t.reports = s.reports ++ instrReports s i := by
  cases i
  case ret =>
    simp only [exec, execRet] at h
    split at h <;> rename_i hs <;> cases h
    · rw [instrReports, if_neg (by omega)]; simp
    · rw [instrReports, if_pos (by omega)]; rfl
  case callAddr nnn =>
    have := s.sp.isLt
    simp only [exec, execCallAddr] at h
    split at h <;> rename_i hs
    · cases h; rw [instrReports, if_neg (by omega)]; simp
    · rw [instrReports, if_pos (by omega)]; split at h <;> cases h <;> rfl
  case ldVxK x => simp only [exec, execLdVxK] at h; split at h <;> cases h <;> simp [instrReports]
  case skpVx x => simp only [exec, execSkpVx, State.skipOnKey] at h; split at h <;> cases h; simp [instrReports]
  case sknpVx x => simp only [exec, execSknpVx, State.skipOnKey] at h; split at h <;> cases h; simp [instrReports]
  case ldBVx x => obtain ⟨-, rfl⟩ := State.ifInRange_eq_next.1 h; simp [instrReports]
  case ldMemVx x => obtain ⟨-, rfl⟩ := State.ifInRange_eq_next.1 h; simp [instrReports]
  case ldVxMem x => obtain ⟨-, rfl⟩ := State.ifInRange_eq_next.1 h; simp [instrReports]
  case drw x y n => obtain ⟨-, rfl⟩ := State.ifInRange_eq_next.1 h; simp [instrReports]
  all_goals cases h; simp [instrReports]

end Sys2Proof.Machine
end

