-- ==== Sys2Proof/Laws/PerInstr.lean ====
section
/-! SUPPORT. Statements for all instructions, made per instruction. Family RowPattern: an instruction's word matches its own row of spec/opcode_table.json, and its fields stand where the row has them. -/

namespace Sys2Proof.Laws.RowPattern

/-- The fixed bits of the row (`w & mask = match`, as the value of each fixed field) and the operands read back from the word. -/
def Statement (i : Instr) : Prop :=
  let w := encode i
  match i with
  | .cls => w.toNat = 0x00E0
  | .ret => w.toNat = 0x00EE
  | .jpAddr nnn => (opOf w).val = 0x1 ∧ nnnOf w = nnn
  | .callAddr nnn => (opOf w).val = 0x2 ∧ nnnOf w = nnn
  | .seVxByte x kk => (opOf w).val = 0x3 ∧ xOf w = x ∧ kkOf w = kk
  | .sneVxByte x kk => (opOf w).val = 0x4 ∧ xOf w = x ∧ kkOf w = kk
  | .seVxVy x y n => (opOf w).val = 0x5 ∧ xOf w = x ∧ yOf w = y ∧ nOf w = n
  | .ldVxByte x kk => (opOf w).val = 0x6 ∧ xOf w = x ∧ kkOf w = kk
  | .addVxByte x kk => (opOf w).val = 0x7 ∧ xOf w = x ∧ kkOf w = kk
  | .ldVxVy x y => (opOf w).val = 0x8 ∧ xOf w = x ∧ yOf w = y ∧ nOf w = 0x0
  | .orVxVy x y => (opOf w).val = 0x8 ∧ xOf w = x ∧ yOf w = y ∧ nOf w = 0x1
  | .andVxVy x y => (opOf w).val = 0x8 ∧ xOf w = x ∧ yOf w = y ∧ nOf w = 0x2
  | .xorVxVy x y => (opOf w).val = 0x8 ∧ xOf w = x ∧ yOf w = y ∧ nOf w = 0x3
  | .addVxVy x y => (opOf w).val = 0x8 ∧ xOf w = x ∧ yOf w = y ∧ nOf w = 0x4
  | .subVxVy x y => (opOf w).val = 0x8 ∧ xOf w = x ∧ yOf w = y ∧ nOf w = 0x5
  | .shrVx x y => (opOf w).val = 0x8 ∧ xOf w = x ∧ yOf w = y ∧ nOf w = 0x6
  | .subnVxVy x y => (opOf w).val = 0x8 ∧ xOf w = x ∧ yOf w = y ∧ nOf w = 0x7
  | .shlVx x y => (opOf w).val = 0x8 ∧ xOf w = x ∧ yOf w = y ∧ nOf w = 0xE
  | .sneVxVy x y n => (opOf w).val = 0x9 ∧ xOf w = x ∧ yOf w = y ∧ nOf w = n
  | .ldIAddr nnn => (opOf w).val = 0xA ∧ nnnOf w = nnn
  | .jpV0Addr nnn => (opOf w).val = 0xB ∧ nnnOf w = nnn
  | .rndVxByte x kk => (opOf w).val = 0xC ∧ xOf w = x ∧ kkOf w = kk
  | .drw x y n => (opOf w).val = 0xD ∧ xOf w = x ∧ yOf w = y ∧ nOf w = n
  | .skpVx x => (opOf w).val = 0xE ∧ xOf w = x ∧ kkOf w = 0x9E
  | .sknpVx x => (opOf w).val = 0xE ∧ xOf w = x ∧ kkOf w = 0xA1
  | .ldVxDT x => (opOf w).val = 0xF ∧ xOf w = x ∧ kkOf w = 0x07
  | .ldVxK x => (opOf w).val = 0xF ∧ xOf w = x ∧ kkOf w = 0x0A
  | .ldDTVx x => (opOf w).val = 0xF ∧ xOf w = x ∧ kkOf w = 0x15
  | .ldSTVx x => (opOf w).val = 0xF ∧ xOf w = x ∧ kkOf w = 0x18
  | .addIVx x => (opOf w).val = 0xF ∧ xOf w = x ∧ kkOf w = 0x1E
  | .ldFVx x => (opOf w).val = 0xF ∧ xOf w = x ∧ kkOf w = 0x29
  | .ldBVx x => (opOf w).val = 0xF ∧ xOf w = x ∧ kkOf w = 0x33
  | .ldMemVx x => (opOf w).val = 0xF ∧ xOf w = x ∧ kkOf w = 0x55
  | .ldVxMem x => (opOf w).val = 0xF ∧ xOf w = x ∧ kkOf w = 0x65

theorem cls : Statement .cls := rfl
theorem ret : Statement .ret := rfl
theorem jpAddr (nnn : BitVec 12) : Statement (.jpAddr nnn) := wordNNN_fields (by decide) nnn
theorem callAddr (nnn : BitVec 12) : Statement (.callAddr nnn) := wordNNN_fields (by decide) nnn
theorem seVxByte (x : Reg) (kk : Byte) : Statement (.seVxByte x kk) := wordXKK_fields (by decide) x kk
theorem sneVxByte (x : Reg) (kk : Byte) : Statement (.sneVxByte x kk) := wordXKK_fields (by decide) x kk
theorem seVxVy (x y n : Fin 16) : Statement (.seVxVy x y n) := wordXYN_fields (by decide) x y n
theorem ldVxByte (x : Reg) (kk : Byte) : Statement (.ldVxByte x kk) := wordXKK_fields (by decide) x kk
theorem addVxByte (x : Reg) (kk : Byte) : Statement (.addVxByte x kk) := wordXKK_fields (by decide) x kk
theorem ldVxVy (x y : Reg) : Statement (.ldVxVy x y) := wordXYN_fields (by decide) x y _
theorem orVxVy (x y : Reg) : Statement (.orVxVy x y) := wordXYN_fields (by decide) x y _
theorem andVxVy (x y : Reg) : Statement (.andVxVy x y) := wordXYN_fields (by decide) x y _
theorem xorVxVy (x y : Reg) : Statement (.xorVxVy x y) := wordXYN_fields (by decide) x y _
theorem addVxVy (x y : Reg) : Statement (.addVxVy x y) := wordXYN_fields (by decide) x y _
theorem subVxVy (x y : Reg) : Statement (.subVxVy x y) := wordXYN_fields (by decide) x y _
theorem shrVx (x y : Reg) : Statement (.shrVx x y) := wordXYN_fields (by decide) x y _
theorem subnVxVy (x y : Reg) : Statement (.subnVxVy x y) := wordXYN_fields (by decide) x y _
theorem shlVx (x y : Reg) : Statement (.shlVx x y) := wordXYN_fields (by decide) x y _
theorem sneVxVy (x y n : Fin 16) : Statement (.sneVxVy x y n) := wordXYN_fields (by decide) x y n
theorem ldIAddr (nnn : BitVec 12) : Statement (.ldIAddr nnn) := wordNNN_fields (by decide) nnn
theorem jpV0Addr (nnn : BitVec 12) : Statement (.jpV0Addr nnn) := wordNNN_fields (by decide) nnn
theorem rndVxByte (x : Reg) (kk : Byte) : Statement (.rndVxByte x kk) := wordXKK_fields (by decide) x kk
theorem drw (x y n : Fin 16) : Statement (.drw x y n) := wordXYN_fields (by decide) x y n
theorem skpVx (x : Reg) : Statement (.skpVx x) := wordXKK_fields (by decide) x _
theorem sknpVx (x : Reg) : Statement (.sknpVx x) := wordXKK_fields (by decide) x _
theorem ldVxDT (x : Reg) : Statement (.ldVxDT x) := wordXKK_fields (by decide) x _
theorem ldVxK (x : Reg) : Statement (.ldVxK x) := wordXKK_fields (by decide) x _
theorem ldDTVx (x : Reg) : Statement (.ldDTVx x) := wordXKK_fields (by decide) x _
theorem ldSTVx (x : Reg) : Statement (.ldSTVx x) := wordXKK_fields (by decide) x _
theorem addIVx (x : Reg) : Statement (.addIVx x) := wordXKK_fields (by decide) x _
theorem ldFVx (x : Reg) : Statement (.ldFVx x) := wordXKK_fields (by decide) x _
theorem ldBVx (x : Reg) : Statement (.ldBVx x) := wordXKK_fields (by decide) x _
theorem ldMemVx (x : Reg) : Statement (.ldMemVx x) := wordXKK_fields (by decide) x _
theorem ldVxMem (x : Reg) : Statement (.ldVxMem x) := wordXKK_fields (by decide) x _

end Sys2Proof.Laws.RowPattern
end

