-- ==== Sys2Proof/Tests/Slice0.lean ====
section
/-! SUPPORT. Tests of the model with values from the spec's vectors (95_test_vectors.md: S1 to S8, V1 to V161) and encodings (R74), and a witness for each statement with hypotheses. -/

namespace Sys2Proof.Tests

open Sys2Proof Sys2Proof.Machine Sys2Proof.Claims

/-! ### Small states and what a step leaves -/

/-- The creation state with a word at 0x200. -/
def start (w : Nat) : State := State.reset.withFetchWord 16 w

/-- The state with other parameters. -/
def under (f : Config.Params → Config.Params) (s : State) : State := { s with params := f s.params }

/-- What a step leaves, seen through `f`; none if it stops. -/
def after {α : Type} (s : State) (f : State → α) : Option α :=
  match step s with
  | .next t => some (f t)
  | _ => none

/-- The fatal fault a step raises. -/
def fatalOf (s : State) : Option HaltReason :=
  match step s with
  | .fault (.fatal r) => some r
  | _ => none

/-- Some cells, (column, row). -/
def cells (ps : List (Fin 64 × Fin 32)) (s : State) : List Bool := ps.map (fun c => Framebuffer.cell s.FB c.1 c.2)

/-- The state with a register, a stack depth, a key, and a picture cell set. -/
def withSp (n : Fin 17) (s : State) : State := { s with sp := n }
def withStack (j : Fin 16) (v : Addr) (s : State) : State := { s with stack := s.stack.set j v }
def withKey (k : Fin 16) (s : State) : State := { s with key := s.key.set k true }
def withCell (px : Fin 64) (py : Fin 32) (s : State) : State := s.setFB (s.FB.setCell px py true)

def jumpV0 (p : Config.Params) : Config.Params := { p with bnnnMode := .jumpV0 }
def requireN0 (p : Config.Params) : Config.Params := { p with decode59 := .requireN0 }
def resultLast (p : Config.Params) : Config.Params := { p with arithFlagOrder := .resultLast }
def hold (p : Config.Params) : Config.Params := { p with callOverflowPc := .hold }
def bit3Raw (p : Config.Params) : Config.Params := { p with shlFlag := .bit3Raw }
def bit7 (p : Config.Params) : Config.Params := { p with shlFlag := .bit7 }
def mem4096 (p : Config.Params) : Config.Params := { p with memSize := .bytes4096 }

/-! ### Well-formedness: an ill-formed term for each check (R75, R76) -/

theorem test_wellFormed_refuses_5xyn : (Instr.seVxVy 1 2 3).wellFormed (requireN0 defaultParams) = false := by decide
theorem test_wellFormed_refuses_9xyn : (Instr.sneVxVy 1 2 15).wellFormed (requireN0 defaultParams) = false := by decide
theorem test_wellFormed_refuses_Bnnn : (Instr.jpV0Addr 0x300).wellFormed defaultParams = false := by decide
theorem test_wellFormed_accepts : (Instr.seVxVy 1 2 3).wellFormed defaultParams = true ∧
    (Instr.seVxVy 1 2 0).wellFormed (requireN0 defaultParams) = true ∧
    (Instr.jpV0Addr 0x300).wellFormed (jumpV0 defaultParams) = true := by decide

/-! ### Decoding: a word of every row, written out bit by bit from the pattern of R74 -/

theorem test_decode_control :
    decode defaultParams 0b0000000011101110 = .instr .ret ∧
    decode defaultParams 0b0001001010100100 = .instr (.jpAddr 0x2A4) ∧
    decode defaultParams 0b0010001100000000 = .instr (.callAddr 0x300) ∧
    decode defaultParams 0b0011001101000010 = .instr (.seVxByte 3 0x42) ∧
    decode defaultParams 0b0100001101000010 = .instr (.sneVxByte 3 0x42) ∧
    decode defaultParams 0b0101000100100000 = .instr (.seVxVy 1 2 0) ∧
    decode defaultParams 0b1001000100100000 = .instr (.sneVxVy 1 2 0) ∧
    decode (jumpV0 defaultParams) 0b1011001100000000 = .instr (.jpV0Addr 0x300) := by decide

theorem test_decode_alu :
    decode defaultParams 0b0110010100111100 = .instr (.ldVxByte 5 0x3C) ∧
    decode defaultParams 0b0111000000000010 = .instr (.addVxByte 0 0x02) ∧
    decode defaultParams 0b1000000100100000 = .instr (.ldVxVy 1 2) ∧
    decode defaultParams 0b1000000100100001 = .instr (.orVxVy 1 2) ∧
    decode defaultParams 0b1000000100100010 = .instr (.andVxVy 1 2) ∧
    decode defaultParams 0b1000000100100011 = .instr (.xorVxVy 1 2) ∧
    decode defaultParams 0b1000000000010100 = .instr (.addVxVy 0 1) ∧
    decode defaultParams 0b1000000000010101 = .instr (.subVxVy 0 1) ∧
    decode defaultParams 0b1000000100100110 = .instr (.shrVx 1 2) ∧
    decode defaultParams 0b1000000000010111 = .instr (.subnVxVy 0 1) ∧
    decode defaultParams 0b1000001000001110 = .instr (.shlVx 2 0) ∧
    decode defaultParams 0b1100010000001111 = .instr (.rndVxByte 4 0x0F) := by decide

theorem test_decode_index_memory :
    decode defaultParams 0b1010001100000000 = .instr (.ldIAddr 0x300) ∧
    decode defaultParams 0b1111001000011110 = .instr (.addIVx 2) ∧
    decode defaultParams 0b1111000000101001 = .instr (.ldFVx 0) ∧
    decode defaultParams 0b1111000000110011 = .instr (.ldBVx 0) ∧
    decode defaultParams 0b1111001001010101 = .instr (.ldMemVx 2) ∧
    decode defaultParams 0b1111001001100101 = .instr (.ldVxMem 2) := by decide

theorem test_decode_display :
    decode defaultParams 0b0000000011100000 = .instr .cls ∧
    decode defaultParams 0b1101000000010010 = .instr (.drw 0 1 2) := by decide

theorem test_decode_keypad_timers :
    decode defaultParams 0b1110000010011110 = .instr (.skpVx 0) ∧
    decode defaultParams 0b1110000010100001 = .instr (.sknpVx 0) ∧
    decode defaultParams 0b1111001100000111 = .instr (.ldVxDT 3) ∧
    decode defaultParams 0b1111001000001010 = .instr (.ldVxK 2) ∧
    decode defaultParams 0b1111000000010101 = .instr (.ldDTVx 0) ∧
    decode defaultParams 0b1111000100011000 = .instr (.ldSTVx 1) := by decide

/-- R76, a word of each bullet. -/
theorem test_decode_unrecognized :
    decode defaultParams 0x0000 = .unrecognized .group0 ∧ decode defaultParams 0x00E1 = .unrecognized .group0 ∧
    decode defaultParams 0xB300 = .unrecognized .groupB ∧ decode defaultParams 0x8128 = .unrecognized .group8 ∧
    decode defaultParams 0x812F = .unrecognized .group8 ∧ decode defaultParams 0xE09F = .unrecognized .groupE ∧
    decode defaultParams 0xF0FF = .unrecognized .groupF ∧
    decode (requireN0 defaultParams) 0x5121 = .unrecognized .group5 ∧
    decode (requireN0 defaultParams) 0x912F = .unrecognized .group9 := by decide

/-! ### Fetch, unrecognized words (V1 to V15) -/

/-- V1, V2, V5. -/
theorem test_fetch : after (start 0x1234) (·.pc) = some 0x234 ∧
    after ((State.reset.setPc 4090).withFetchWord 16 0x1200) (·.pc) = some 0x200 ∧
    after ((under mem4096 (State.reset.setPc 4094)).withFetchWord 16 0x1200) (·.pc) = some 0x200 := by decide

/-- V3, V4, V5. -/
theorem test_fetch_outOfBounds : fatalOf (State.reset.setPc 4091) = some (.fetchOutOfBounds 4091) ∧
    fatalOf (State.reset.setPc 4092) = some (.fetchOutOfBounds 4092) ∧
    fatalOf (under mem4096 (State.reset.setPc 4095)) = some (.fetchOutOfBounds 4095) := by decide

/-- V6, V7, V9. -/
theorem test_unrecognized : after (start 0x8128) (fun t => (t.pc, t.reports)) = some (0x202, [.unknownOpcode 0x200 0x8128]) ∧
    after (start 0x0000) (fun t => (t.pc, t.reports)) = some (0x202, [.unknownOpcode 0x200 0x0000]) ∧
    after (under (fun _ => defaultParams) (start 0xB300)) (fun t => (t.pc, t.reports)) =
      some (0x202, [.unknownOpcode 0x200 0xB300]) := by decide

/-! ### Control flow (V20 to V36) -/

/-- V20, V21, V22. -/
theorem test_JP : after (start 0x12A4) (·.pc) = some 0x2A4 ∧ after (start 0x1FFF) (·.pc) = some 0xFFF ∧
    after (start 0x1203) (·.pc) = some 0x203 := by decide

/-- V23, V24. -/
theorem test_CALL : after (start 0x2300) (fun t => (t.stack[0], t.sp, t.pc)) = some (0x202, 1, 0x300) ∧
    after (withSp 15 (start 0x2300)) (fun t => (t.stack[15], t.sp, t.pc)) = some (0x202, 16, 0x300) := by decide

/-- V25. -/
theorem test_CALL_overflow :
    after (withSp 16 (start 0x2300)) (fun t => (t.stack, t.sp, t.pc, t.reports)) =
      some (State.reset.stack, 16, 0x202, [.stackOverflow 0x200]) ∧
    after (under hold (withSp 16 (start 0x2300))) (fun t => (t.sp, t.pc, t.reports)) =
      some (16, 0x200, [.stackOverflow 0x200]) := by decide

/-- V26. -/
theorem test_RET :
    after ((withSp 1 (withStack 0 0x206 (State.reset.setPc 0x212))).withFetchWord 16 0x00EE)
      (fun t => (t.sp, t.pc, t.stack[0], t.reports)) = some (0, 0x206, 0x206, []) := by decide

/-- V27. -/
theorem test_RET_underflow :
    after (start 0x00EE) (fun t => (t.sp, t.pc, t.reports)) = some (0, 0x200, [.stackUnderflow 0x200]) := by decide

/-- S4, V35. -/
theorem test_SE_byte : after ((start 0x3342).setReg 3 0x42) (·.pc) = some 0x204 ∧
    after ((start 0x3342).setReg 3 0x41) (·.pc) = some 0x202 ∧
    after ((start 0x3F01).setReg 15 0x01) (·.pc) = some 0x204 := by decide

/-- V28, V29. -/
theorem test_SNE_byte : after ((start 0x4342).setReg 3 0x42) (·.pc) = some 0x202 ∧
    after ((start 0x4342).setReg 3 0x41) (·.pc) = some 0x204 := by decide

/-- V30, V31, V13. -/
theorem test_SE_reg : after (((start 0x5120).setReg 1 7).setReg 2 7) (·.pc) = some 0x204 ∧
    after (((start 0x5120).setReg 1 7).setReg 2 8) (·.pc) = some 0x202 ∧
    after (((start 0x5121).setReg 1 7).setReg 2 7) (·.pc) = some 0x204 ∧
    after (under requireN0 (((start 0x5121).setReg 1 7).setReg 2 7)) (·.pc) = some 0x202 := by decide

/-- V33, V34, V14. -/
theorem test_SNE_reg : after (((start 0x9120).setReg 1 7).setReg 2 8) (·.pc) = some 0x204 ∧
    after ((start 0x9110).setReg 1 7) (·.pc) = some 0x202 ∧
    after (((start 0x912F).setReg 1 7).setReg 2 8) (·.pc) = some 0x204 ∧
    after (under requireN0 (((start 0x912F).setReg 1 7).setReg 2 8)) (·.pc) = some 0x202 := by decide

/-- V10. -/
theorem test_JP_V0 :
    after ((under jumpV0 (start 0xB300)).setReg 0 0x10) (fun t => (t.pc, t.reports)) = some (0x310, []) := by decide

/-! ### Loads, arithmetic and logic (S1, S7, S8, V40 to V73) -/

/-- V40. -/
theorem test_LD_byte : after (start 0x653C) (fun t => (t.reg 5, t.pc)) = some (0x3C, 0x202) := by decide

/-- V41, V42. -/
theorem test_ADD_byte :
    after (((start 0x7002).setReg 0 0xFF).setReg 15 0x77) (fun t => (t.reg 0, t.reg 15)) = some (0x01, 0x77) ∧
    after ((start 0x7F01).setReg 15 0xFF) (·.reg 15) = some 0x00 := by decide

/-- V43. -/
theorem test_LD_reg : after ((start 0x8120).setReg 2 0x99) (fun t => (t.reg 1, t.reg 2)) = some (0x99, 0x99) := by
  decide

/-- V44. -/
theorem test_OR : after ((((start 0x8121).setReg 1 0xF0).setReg 2 0x0F).setReg 15 0x55) (fun t => (t.reg 1, t.reg 15)) =
    some (0xFF, 0x55) := by decide

/-- V45. -/
theorem test_AND : after (((start 0x8122).setReg 1 0xF0).setReg 2 0x3C) (·.reg 1) = some 0x30 := by decide

/-- V46. -/
theorem test_XOR : after (((start 0x8123).setReg 1 0xFF).setReg 2 0x0F) (·.reg 1) = some 0xF0 := by decide

/-- S7, V49, V50, V52. -/
theorem test_ADD :
    after (((start 0x8014).setReg 0 0xFF).setReg 1 0x01) (fun t => (t.reg 0, t.reg 15)) = some (0x00, 1) ∧
    after (((start 0x8014).setReg 0 0x7F).setReg 1 0x80) (fun t => (t.reg 0, t.reg 15)) = some (0xFF, 0) ∧
    after ((start 0x8004).setReg 0 0x81) (fun t => (t.reg 0, t.reg 15)) = some (0x02, 1) ∧
    after (((start 0x80F4).setReg 0 0x10).setReg 15 0x01) (fun t => (t.reg 0, t.reg 15)) = some (0x11, 0) := by
  decide

/-- V51. -/
theorem test_ADD_VF : after (((start 0x8F14).setReg 15 0xFF).setReg 1 0x01) (·.reg 15) = some 1 ∧
    after (under resultLast (((start 0x8F14).setReg 15 0xFF).setReg 1 0x01)) (·.reg 15) = some 0x00 := by decide

/-- S8, V53, V54. -/
theorem test_SUB :
    after (((start 0x8015).setReg 0 0x05).setReg 1 0x0A) (fun t => (t.reg 0, t.reg 15)) = some (0xFB, 0) ∧
    after (((start 0x8015).setReg 0 0x0A).setReg 1 0x05) (fun t => (t.reg 0, t.reg 15)) = some (0x05, 1) ∧
    after (((start 0x8015).setReg 0 0x07).setReg 1 0x07) (fun t => (t.reg 0, t.reg 15)) = some (0x00, 1) := by
  decide

/-- V56. -/
theorem test_SUB_VF : after (((start 0x8F15).setReg 15 0x05).setReg 1 0x0A) (·.reg 15) = some 0 ∧
    after (under resultLast (((start 0x8F15).setReg 15 0x05).setReg 1 0x0A)) (·.reg 15) = some 0xFB := by decide

/-- V57, V58. -/
theorem test_SUBN :
    after (((start 0x8017).setReg 0 0x05).setReg 1 0x0A) (fun t => (t.reg 0, t.reg 15)) = some (0x05, 1) ∧
    after (((start 0x8017).setReg 0 0x0A).setReg 1 0x05) (fun t => (t.reg 0, t.reg 15)) = some (0xFB, 0) := by
  decide

/-- V60, V63, V64. -/
theorem test_SHR :
    after ((start 0x8106).setReg 1 0x05) (fun t => (t.reg 1, t.reg 15)) = some (0x02, 1) ∧
    after (((start 0x8126).setReg 1 0x04).setReg 2 0xFF) (fun t => (t.reg 1, t.reg 15)) = some (0x02, 0) ∧
    after ((start 0x8FF6).setReg 15 0xFF) (·.reg 15) = some 0x00 := by decide

/-- V65, V66. -/
theorem test_SHL :
    after ((start 0x820E).setReg 2 0x08) (fun t => (t.reg 2, t.reg 15)) = some (0x10, 1) ∧
    after (under bit3Raw ((start 0x820E).setReg 2 0x08)) (·.reg 15) = some 0x08 ∧
    after (under bit7 ((start 0x820E).setReg 2 0x08)) (·.reg 15) = some 0 ∧
    after ((start 0x820E).setReg 2 0x80) (fun t => (t.reg 2, t.reg 15)) = some (0x00, 0) ∧
    after (under bit7 ((start 0x820E).setReg 2 0x80)) (·.reg 15) = some 1 := by decide

/-- V69. -/
theorem test_SHL_VF : after ((start 0x8FFE).setReg 15 0x08) (·.reg 15) = some 0x02 ∧
    after (under bit3Raw ((start 0x8FFE).setReg 15 0x08)) (·.reg 15) = some 0x10 ∧
    after (under bit7 ((start 0x8FFE).setReg 15 0x08)) (·.reg 15) = some 0x00 := by decide

/-- V72, V73, for every draw. -/
theorem test_RND (s : State) : (∃ t, exec (.rndVxByte 4 0x00) s = .next t ∧ t.reg 4 = 0x00) ∧
    (∃ t, exec (.rndVxByte 4 0xFF) s = .next t ∧ t.reg 4 = Config.freeDraw s.draws) := by
  refine ⟨⟨_, rfl, ?_⟩, ⟨_, rfl, ?_⟩⟩
  · simp
  · rw [State.advance_reg, show (0xFF : Byte) = BitVec.allOnes 8 from rfl, BitVec.and_allOnes]; simp [State.drawRnd]

/-! ### Index register and memory (V80 to V101) -/

/-- V80, V81. -/
theorem test_LD_I : after (start 0xA300) (·.I) = some 0x0300 ∧ after (start 0xAFFF) (·.I) = some 0x0FFF := by decide

/-- V82, V83. -/
theorem test_ADD_I : after (((start 0xF21E).setI 0x0300).setReg 2 0x10) (·.I) = some 0x0310 ∧
    after (((start 0xF01E).setI 0xFFFF).setReg 0 0x02) (fun t => (t.I, t.reg 15)) = some (0x0001, 0) := by decide

/-- V84, V86. -/
theorem test_LD_F : after ((start 0xF029).setReg 0 0x0A) (·.I) = some 0x0032 ∧
    after ((start 0xF029).setReg 0 0xFF) (·.I) = some 0x04FB := by decide

/-- V87, V90. -/
theorem test_LD_B :
    after (((start 0xF033).setReg 0 0xFE).setI 0x300) (fun t => (t.readBytes 0x300 4, t.I)) = some ([2, 5, 4, 0], 0x300) ∧
    after (((start 0xF033).setReg 0 100).setI 0x300) (fun t => t.readBytes 0x300 3) = some [1, 0, 0] := by decide

/-- V91, V92. -/
theorem test_LD_B_edge : after (((start 0xF033).setReg 0 0xFE).setI 4089) (fun t => t.readBytes 4089 3) = some [2, 5, 4] ∧
    fatalOf ((start 0xF033).setI 4090) = some (.memOutOfBounds 4092) := by decide

/-- V93. -/
theorem test_LD_mem :
    after (((((start 0xF255).setI 0x300).setReg 0 1).setReg 1 2).setReg 2 3) (fun t => (t.readBytes 0x300 4, t.I)) =
      some ([1, 2, 3, 0], 0x300) := by decide

/-- V96, V97. -/
theorem test_LD_mem_edge : fatalOf ((start 0xFA55).setI 4085) = some (.memOutOfBounds 4092) ∧
    after (((start 0xFA55).setI 4081).setReg 10 9) (fun t => t.readByte 4091) = some 9 := by decide

/-- V98, V99. -/
theorem test_LD_load :
    after (((start 0xF265).setI 0x300).storeBytes 0x300 [2, 5, 4, 7]) (fun t => (t.reg 0, t.reg 1, t.reg 2, t.reg 3)) =
      some (2, 5, 4, 0) ∧
    after (((start 0xFF65).setI 0x300).storeBytes 0x30F [0xAA]) (·.reg 15) = some 0xAA := by decide

/-- V100. -/
theorem test_LD_load_edge : fatalOf ((start 0xF165).setI 0xFFFE) = some (.memOutOfBounds 65534) := by decide

/-! ### Framebuffer (V110 to V121) -/

/-- V110, S6. -/
theorem test_CLS : after ((withCell 5 5 (start 0x00E0)).setReg 15 0x33) (fun t => (cells [(5, 5), (0, 0)] t, t.reg 15, t.pc)) =
    some ([false, false], 0x33, 0x202) := by decide

/-- V111, V113, V114. -/
theorem test_DRW_wraps :
    after (((start 0xD011).setI 0x300).storeBytes 0x300 [0xF0]) (fun t => (cells [(0, 0), (3, 0), (4, 0), (0, 1)] t, t.reg 15)) =
      some ([true, true, false, false], 0) ∧
    after ((((start 0xD011).setI 0x300).storeBytes 0x300 [0xFF]).setReg 0 62) (cells [(61, 0), (62, 0), (5, 0), (6, 0)]) =
      some [false, true, true, false] ∧
    after ((((start 0xD012).setI 0x300).storeBytes 0x300 [0x80, 0x80]).setReg 1 31) (cells [(0, 31), (0, 0), (0, 1)]) =
      some [true, true, false] := by decide

/-- V116, V117, V118, V121. -/
theorem test_DRW_flag :
    after ((((start 0xDF11).setI 0x300).storeBytes 0x300 [0xC0]).setReg 15 10) (fun t => (cells [(10, 0), (0, 0)] t, t.reg 15)) =
      some ([true, false], 0) ∧
    after (((start 0xD010).setI 0xFFFF).setReg 15 1) (·.reg 15) = some 0 ∧
    fatalOf ((start 0xD013).setI 4090) = some (.memOutOfBounds 4092) ∧
    after (withCell 1 0 (((start 0xD011).setI 0x300).storeBytes 0x300 [0xC0])) (fun t => (cells [(0, 0), (1, 0)] t, t.reg 15)) =
      some ([true, false], 1) := by decide

/-! ### Keypad and timers (V130 to V141) -/

/-- V130, V131, V134. -/
theorem test_SKP : after (withKey 3 ((start 0xE09E).setReg 0 3)) (·.pc) = some 0x204 ∧
    after ((start 0xE09E).setReg 0 3) (·.pc) = some 0x202 ∧
    fatalOf ((start 0xE09E).setReg 0 16) = some (.keyIndexOutOfRange 16) := by decide

/-- V132, V133, V135. -/
theorem test_SKNP : after ((start 0xE0A1).setReg 0 3) (·.pc) = some 0x204 ∧
    after (withKey 3 ((start 0xE0A1).setReg 0 3)) (·.pc) = some 0x202 ∧
    fatalOf ((start 0xE0A1).setReg 0 0xFF) = some (.keyIndexOutOfRange 0xFF) := by decide

/-- V136, V137, V138. -/
theorem test_LD_K : after (withKey 9 (withKey 5 (start 0xF20A))) (fun t => (t.reg 2, t.pc)) = some (5, 0x202) ∧
    step (start 0xF20A) = .next (start 0xF20A) ∧
    after (withKey 15 (start 0xF20A)) (fun t => (t.reg 2, t.pc)) = some (15, 0x202) :=
  ⟨by decide, rfl, by decide⟩

/-- V139, V140, V141. -/
theorem test_timers : after ((start 0xF307).setDT 0x2A) (·.reg 3) = some 0x2A ∧
    after ((start 0xF015).setReg 0 0x3C) (fun t => (t.DT, t.ST)) = some (0x3C, 0) ∧
    after ((start 0xF118).setReg 1 0x05) (fun t => (t.ST, t.DT, t.tone)) = some (0x05, 0, false) := by decide

/-! ### The host's transactions (V150 to V161) -/

/-- V150 to V154. -/
theorem test_Tick : ((State.reset.setDT 1).tick.DT, (State.reset.setDT 1).tick.tone) = (0, false) ∧
    (State.reset.setDT 0).tick.DT = 0 ∧
    ((State.reset.setST 1).tick.ST, (State.reset.setST 1).tick.tone, (State.reset.setST 1).tick.tick.tone) =
      (0, true, false) ∧ (State.reset.setST 5).tick.ST = 4 := by decide

/-- V160, V161, and the keypad read back (R256). -/
theorem test_reads : transact State.reset .readKeys (State.reset.setKeys 0x0008) =
      some (State.reset.setKeys 0x0008, .keys (State.reset.key.set 3 true)) ∧
    transact State.reset .readFramebuffer State.reset = some (State.reset, .framebuffer State.reset.FB) := ⟨rfl, rfl⟩

/-- V160. -/
theorem test_SetKeys : (State.reset.setKeys 0x0008).key = State.reset.key.set 3 true := by decide

/-- V156, V157, V159. -/
theorem test_imageFits : State.reset.imageFits (List.replicate 3580 1) = true ∧
    State.reset.imageFits (List.replicate 3581 1) = false ∧
    (under mem4096 State.reset).imageFits (List.replicate 3584 1) = true := by
  simp only [State.imageFits, List.length_replicate]; decide

/-- S6: after clear screen, the jump to itself is a steady loop. -/
theorem test_LoadImage_runs : after (State.reset.load [0x00, 0xE0, 0x12, 0x02]) (fun t => (t.pc, after t (·.pc))) =
    some (0x202, some 0x202) := by decide

/-! ### Witnesses: a concrete case that meets all the hypotheses of a statement, one for each clause, at the edges of its range -/

theorem witness_DecodeOfEncodeIsTheInstruction : (Instr.seVxVy 1 2 3).wellFormed defaultParams = true ∧
    (Instr.sneVxVy 1 2 0).wellFormed (requireN0 defaultParams) = true ∧
    (Instr.jpV0Addr 0xFFF).wellFormed (jumpV0 defaultParams) = true ∧
    (Instr.ldVxMem 15).wellFormed defaultParams = true := by decide

theorem witness_EncodeOfDecodeIsTheWord : decode defaultParams 0xFF65 = .instr (.ldVxMem 15) ∧
    decode (jumpV0 defaultParams) 0xBFFF = .instr (.jpV0Addr 0xFFF) := by decide

/-- Each bullet of R76 is met, and so is none of them. -/
theorem witness_UnrecognizedWordsAreThoseListed :
    UnrecognizedByR76 defaultParams 0x0000 ∧ UnrecognizedByR76 defaultParams 0xB300 ∧
    UnrecognizedByR76 defaultParams 0x8128 ∧ UnrecognizedByR76 defaultParams 0x812D ∧ UnrecognizedByR76 defaultParams 0x812F ∧
    UnrecognizedByR76 defaultParams 0xE09F ∧ UnrecognizedByR76 defaultParams 0xF0FF ∧
    UnrecognizedByR76 (requireN0 defaultParams) 0x5121 ∧ UnrecognizedByR76 (requireN0 defaultParams) 0x912F ∧
    ¬ UnrecognizedByR76 defaultParams 0x5121 ∧ ¬ UnrecognizedByR76 defaultParams 0x812E := by
  simp [UnrecognizedByR76, defaultParams, requireN0]

theorem witness_OpcodeTableRowSelectsInstruction :
    (jumpV0 defaultParams).decode59 = .ignoreN ∧ (jumpV0 defaultParams).bnnnMode = .jumpV0 ∧
    opcodeTable[0]? = some (0xFFFF, 0x00E0) ∧ opcodeTable[20]? = some (0xF000, 0xB000) ∧
    opcodeTable[33]? = some (0xF0FF, 0xF065) ∧ opcodeTable.length = 34 ∧ (0xFF65 : Nat) &&& 0xF0FF = 0xF065 := by decide

/-- At `pc = 4090`, the highest address a fetch can succeed at (V2). -/
theorem witness_StepRunsDecodedInstruction :
    let s := (State.reset.setPc 4090).withFetchWord 16 0x1200
    s.status = .running ∧ s.pc.toNat + 1 < s.memSize ∧
    (0x1200 : Word).toNat = (s.readByte s.pc.toNat).toNat * 256 + (s.readByte (s.pc.toNat + 1)).toNat ∧
    decode s.params 0x1200 = .instr (.jpAddr 0x200) := by decide

theorem witness_UnrecognizedWordIsReportedAndSkipped :
    let s := (State.reset.setPc 4090).withFetchWord 16 0x8128
    s.status = .running ∧ s.pc.toNat + 1 < s.memSize ∧
    (0x8128 : Word).toNat = (s.readByte s.pc.toNat).toNat * 256 + (s.readByte (s.pc.toNat + 1)).toNat ∧
    decode s.params 0x8128 = .unrecognized .group8 := by decide

/-- At `pc = 4091`, the lowest address a fetch fails at (V3); `pc = 4090` is inside. -/
theorem witness_FetchFaultExactlyOutsideMemory :
    let s := State.reset.setPc 4091
    (s.status = .running ∧ s.memSize ≤ s.pc.toNat + 1) ∧ ¬ (State.reset.setPc 4090).memSize ≤ 4090 + 1 := by decide

theorem witness_HaltedMachineHasNoTransition :
    (State.reset.halt State.reset (.memOutOfBounds 4092)).status = .halted (.memOutOfBounds 4092) ∧
    (State.reset.setPc 4091).status = .running ∧
    step (State.reset.setPc 4091) = .fault (.fatal (.fetchOutOfBounds 4091)) := ⟨rfl, rfl, rfl⟩

/-- A step with each kind of report, and with none. -/
theorem witness_StepReportsAreThoseOfTheTable : (∃ t, step (start 0x8128) = .next t) ∧ (∃ t, step (start 0x00EE) = .next t) ∧
    (∃ t, step (withSp 16 (start 0x2300)) = .next t) ∧ (∃ t, step (start 0x1200) = .next t) :=
  ⟨⟨_, rfl⟩, ⟨_, rfl⟩, ⟨_, rfl⟩, ⟨_, rfl⟩⟩

/-! An access that just fits, and the lowest address of one that does not. -/

theorem inRange_of {s : State} {base len : Nat} (h : base + len ≤ s.memSize) : InRange s base len := by
  intro a _ _; omega

theorem lowest_of {s : State} {base len a : Nat} (h : base ≤ a ∧ a < base + len ∧ s.memSize ≤ a)
    (hb : a = base ∨ a = s.memSize) : LowestOutside s base len a :=
  ⟨h.1, h.2.1, h.2.2, fun b _ _ => by omega⟩

theorem witness_InstructionFaultsAreThoseNamed :
    LowestOutside (start 0xF033) 4090 (accessLength (.ldBVx 0)) 4092 ∧
    LowestOutside (start 0xF165) 65534 (accessLength (.ldVxMem 1)) 65534 ∧
    15 < (((start 0xE09E).setReg 0 16).reg 0).toNat ∧ 15 < (((start 0xE0A1).setReg 0 0xFF).reg 0).toNat :=
  ⟨lowest_of (by decide) (by decide), lowest_of (by decide) (by decide), by decide, by decide⟩

/-- A register form, a store, and a draw run to a next state. -/
theorem witness_InstructionsWriteOnlyWhatIsNamed : (∃ t, exec (.addVxVy 0 1) (start 0x8014) = .next t) ∧
    (∃ t, exec (.ldMemVx 10) ((start 0xFA55).setI 4081) = .next t) ∧ (∃ t, exec (.drw 0 1 2) ((start 0xD012).setI 4090) = .next t) :=
  ⟨⟨_, rfl⟩, ⟨_, rfl⟩, ⟨_, rfl⟩⟩

theorem witness_ProgramCounterFollowsTheTable : (∃ t, exec .ret (withSp 16 State.reset) = .next t) ∧
    (∃ t, exec (.callAddr 0x300) (withSp 16 State.reset) = .next t) ∧ (∃ t, exec (.ldVxK 2) State.reset = .next t) ∧
    (∃ t, exec (.skpVx 0) (State.reset.setReg 0 15) = .next t) := ⟨⟨_, rfl⟩, ⟨_, rfl⟩, ⟨_, rfl⟩, ⟨_, rfl⟩⟩

theorem start_inv : (start 0x1200).Inv := by decide

theorem witness_StepKeepsInvariant : ∃ t, (start 0x1200).Inv ∧ step (start 0x1200) = .next t := ⟨_, start_inv, rfl⟩

/-- Parameters with a font of a digit's five bytes, and of the most bytes allowed. -/
def fontParams : Config.Params := { defaultParams with fontPreload := [0xF0, 0x90, 0x90, 0x90, 0xF0] }

theorem witness_CreationSatisfiesInvariant : fontParams.wf = true ∧
    ({ defaultParams with fontPreload := List.replicate 0x200 1 } : Config.Params).wf = true := by
  simp only [Config.Params.wf, List.length_replicate]; decide

/-- A step and a load that leave the machine running. -/
theorem witness_TransactionsKeepInvariant :
    (∃ t r, (start 0x1200).Inv ∧ transact State.reset .step (start 0x1200) = some (t, r) ∧ t.status = .running) ∧
    (∃ t r, (start 0x1200).Inv ∧ transact State.reset (.loadImage [0x12, 0x02]) (start 0x1200) = some (t, r) ∧
      t.status = .running) :=
  ⟨⟨_, _, start_inv, rfl, rfl⟩, ⟨_, _, start_inv, rfl, rfl⟩⟩

theorem witness_ReachableRunningStatesSatisfyInvariant :
    Reachable ((State.create defaultParams).tick) ∧ (State.create defaultParams).tick.status = .running :=
  ⟨.after State.reset _ _ .tick .nothing (.created defaultParams (by decide)) rfl, rfl⟩

/-- With the last byte of the font. -/
theorem witness_ResetIsTheCreationState : fontParams.wf = true ∧ 4 < fontParams.fontPreload.length := by decide

theorem witness_FontPreloadLiesAtZero : fontParams.wf = true := by decide

theorem witness_TransactionsKeepConfiguration :
    (∃ t r, transact State.reset .step (start 0x1200) = some (t, r)) ∧
    (∃ t r, transact State.reset .step (State.reset.setPc 4091) = some (t, r)) := ⟨⟨_, _, rfl⟩, ⟨_, _, rfl⟩⟩

/-- An empty stack, one entry, and sixteen. -/
theorem witness_ReturnPopsOrReportsUnderflow : State.reset.sp.val = 0 ∧ 0 < (withSp 1 State.reset).sp.val ∧
    0 < (withSp 16 State.reset).sp.val := by decide

/-- Room for one more, and none; each value of `CALL_OVERFLOW_PC`. -/
theorem witness_CallPushesOrReportsOverflow : State.reset.sp.val < 16 ∧ (withSp 15 State.reset).sp.val < 16 ∧
    (withSp 16 State.reset).sp.val = 16 ∧ State.reset.params.callOverflowPc = .advance ∧
    (under hold (withSp 16 State.reset)).params.callOverflowPc = .hold := by decide

/-- S3. -/
theorem witness_CallThenReturnContinuesAfterCall :
    let s := withSp 15 (State.reset.load [0x22, 0x04, 0x12, 0x02, 0x00, 0xEE])
    s.status = .running ∧ s.fetch = some 0x2204 ∧ decode s.params 0x2204 = .instr (.callAddr 0x204) ∧ s.sp.val < 16 ∧
    ((0x204 : BitVec 12).toNat + 1 < s.memSize ∧ s.readByte (0x204 : BitVec 12).toNat = 0x00 ∧
      s.readByte ((0x204 : BitVec 12).toNat + 1) = 0xEE) := by decide

theorem witness_ImmediateSkipsCompareRegister : (State.reset.setReg 3 0x42).reg 3 = 0x42 ∧
    (State.reset.setReg 3 0x41).reg 3 ≠ 0x42 := by decide

theorem witness_RegisterSkipsCompareRegisters : State.reset.params.decode59 = .ignoreN ∧
    (under requireN0 State.reset).params.decode59 ≠ .ignoreN ∧ (0 : Fin 16) = 0 ∧
    State.reset.reg 1 = State.reset.reg 2 ∧ (State.reset.setReg 1 7).reg 1 ≠ (State.reset.setReg 1 7).reg 2 := by decide

theorem witness_JumpV0AddsRegisterZero : (under jumpV0 State.reset).params.bnnnMode = .jumpV0 ∧
    State.reset.params.bnnnMode = .unrecognized := by decide

/-- Another register than `VF`, and `VF` with each value of `ARITH_FLAG_ORDER`. -/
theorem witness_AddSetsSumAndCarry : (0 : Reg) ≠ VF ∧ State.reset.params.arithFlagOrder = .flagLast ∧
    (under resultLast State.reset).params.arithFlagOrder = .resultLast := by decide

theorem witness_SubtractsSetDifferenceAndNotBorrow : (0 : Reg) ≠ VF ∧ State.reset.params.arithFlagOrder = .flagLast ∧
    (under resultLast State.reset).params.arithFlagOrder = .resultLast := by decide

theorem witness_ShiftRightWritesFlagThenShifts : (14 : Reg) ≠ VF ∧ (15 : Reg) = VF := by decide

theorem witness_ShiftLeftWritesFlagThenShifts : (14 : Reg) ≠ VF ∧ (15 : Reg) = VF := by decide

/-- V91, V92. -/
theorem witness_BcdStoresThreeDigits : InRange (State.reset.setI 4089) 4089 3 ∧
    LowestOutside (State.reset.setI 4090) 4090 3 4092 :=
  ⟨inRange_of (by decide), lowest_of (by decide) (by decide)⟩

/-- V97, V96. -/
theorem witness_RegisterDumpStoresThroughX : InRange (State.reset.setI 4081) 4081 ((10 : Reg).val + 1) ∧
    LowestOutside (State.reset.setI 4085) 4085 ((10 : Reg).val + 1) 4092 :=
  ⟨inRange_of (by decide), lowest_of (by decide) (by decide)⟩

/-- `I = 4076` with all sixteen registers, and V100. -/
theorem witness_RegisterLoadLoadsThroughX : InRange (State.reset.setI 4076) 4076 ((15 : Reg).val + 1) ∧
    LowestOutside (State.reset.setI 0xFFFE) 65534 ((1 : Reg).val + 1) 65534 :=
  ⟨inRange_of (by decide), lowest_of (by decide) (by decide)⟩

theorem witness_DumpThenLoadRestoresRegisters : ∃ t : State, exec (.ldMemVx 15) (State.reset.setI 4076) = .next t ∧
    (∃ u : State, u.reg 3 ≠ t.reg 3 ∧ u.I = t.I ∧ u.params = t.params ∧ ∀ a, u.readByte a = t.readByte a) :=
  ⟨_, rfl, State.setReg (State.advance (State.storeBytes (State.reset.setI 4076) 4076 (List.replicate 16 0))) 3 9,
    by decide, rfl, rfl, fun _ => rfl⟩

/-- V101. -/
theorem witness_StoreIntoCodeIsFetchedNext : (State.reset.setI 0x202).I.toNat = (State.reset.setI 0x202).pc.toNat + 2 ∧
    1 ≤ (1 : Reg).val ∧ InRange (State.reset.setI 0x202) 0x202 ((1 : Reg).val + 1) :=
  ⟨by decide, by decide, inRange_of (by decide)⟩

/-- The state of V111, with a sprite of one row at the origin. -/
def sprite : State := ((start 0xD011).setI 0x300).storeBytes 0x300 [0xF0]

theorem sprite_covers : SpriteCovers 0 1 1 sprite 0 0 := ⟨0, 0, by decide⟩

/-- A row at the last address, no row anywhere, a row outside; a covered cell and one that is not. -/
theorem witness_DrawInvertsCoveredCells : InRange (State.reset.setI 4077) 4077 (15 : Fin 16).val ∧
    InRange (State.reset.setI 0xFFFF) 65535 (0 : Fin 16).val ∧
    LowestOutside (State.reset.setI 4090) 4090 (3 : Fin 16).val 4092 ∧
    SpriteCovers 0 1 1 sprite 0 0 ∧ ¬ SpriteCovers 0 1 0 sprite 0 0 :=
  ⟨inRange_of (by decide), fun a h h' => by simp at h'; omega, lowest_of (by decide) (by decide), sprite_covers,
    fun ⟨_, _, h, _⟩ => absurd h (Nat.not_lt_zero _)⟩

/-- A collision, and none. -/
theorem witness_DrawFlagIsCollision :
    (∃ t, exec (.drw 0 1 1) (withCell 0 0 sprite) = .next t ∧
      ∃ px py, SpriteCovers 0 1 1 (withCell 0 0 sprite) px py ∧ Framebuffer.cell (withCell 0 0 sprite).FB px py = true) ∧
    (∃ t, exec (.drw 0 1 0) State.reset = .next t ∧
      ¬ ∃ px py, SpriteCovers 0 1 0 State.reset px py ∧ Framebuffer.cell State.reset.FB px py = true) :=
  ⟨⟨_, rfl, 0, 0, sprite_covers, by decide⟩,
    ⟨_, rfl, fun ⟨_, _, ⟨_, _, h, _⟩, _⟩ => absurd h (Nat.not_lt_zero _)⟩⟩

theorem witness_SecondDrawRestoresPicture : ∃ t u : State, exec (.drw 0 1 1) sprite = .next t ∧
    (u.FB = t.FB ∧ u.I = sprite.I ∧ u.reg 0 = sprite.reg 0 ∧ u.reg 1 = sprite.reg 1 ∧ u.params = sprite.params ∧
      ∀ a, u.readByte a = sprite.readByte a) :=
  ⟨_, { sprite with FB := _ }, rfl, rfl, rfl, rfl, rfl, rfl, fun _ => rfl⟩

/-- The highest key, pressed and not, and the lowest index that is none. -/
theorem witness_KeySkipsTestNamedKey : ((State.reset.setReg 0 15).reg 0).toNat = (15 : Fin 16).val ∧
    (withKey 15 State.reset).key[(15 : Fin 16)] = true ∧ State.reset.key[(15 : Fin 16)] = false ∧
    15 < ((State.reset.setReg 0 16).reg 0).toNat := by decide

theorem witness_WaitForKeyTakesLowestPressed :
    (withKey 15 State.reset).key[(15 : Fin 16)] = true ∧ (∀ j : Fin 16, j < 15 → (withKey 15 State.reset).key[j] = false) ∧
    (∀ k : Fin 16, State.reset.key[k] = false) := by decide

/-- A halted state, for the clauses about halted machines. -/
theorem halted_witness : (State.reset.halt State.reset (.keyIndexOutOfRange 16)).status = .halted (.keyIndexOutOfRange 16) := rfl

theorem witness_TickCountsDownAndSetsTone : (State.reset.setST 1).status = .running ∧ (State.reset.setST 1).ST ≠ 0 ∧
    State.reset.ST = 0 := by decide

theorem witness_ManyTicksFloorAtZero : 1 ≤ 1 := Nat.le_refl 1

theorem witness_SetKeysWritesEveryKey : State.reset.status = .running := rfl

theorem witness_HostReadsAnswerTheStateUnchanged : (State.reset.setKeys 0x0008).status = .running := rfl

/-- V156, V157. -/
theorem witness_LoadImageCopiesOrRefusesWhole : State.reset.status = .running ∧
    0x200 + (List.replicate 3580 (1 : Byte)).length ≤ State.reset.memSize ∧
    State.reset.memSize < 0x200 + (List.replicate 3581 (1 : Byte)).length := by
  simp only [List.length_replicate]; decide

theorem witness_LoadedImageIsFetchedBigEndian : ∃ t : State, (0 : Nat) + 1 < ([0x12, 0x34] : List Byte).length ∧
    transact State.reset (.loadImage [0x12, 0x34]) State.reset = some (t, .loaded) ∧ t.pc.toNat = 0x200 + 0 :=
  ⟨_, by decide, rfl, by decide⟩

theorem witness_SelfJumpIsSteady : (start 0x1200).EndedNormally := ⟨rfl, 0x1200, 0x200, by decide⟩

theorem witness_KeypadIsInvisibleToOtherInstructions : readsKeypad (.addVxVy 0 1) = false := rfl

/-- A stale entry that differs, with one entry in use. -/
theorem witness_StaleStackEntriesAreInvisible :
    SameUpToStaleStack (withSp 1 (start 0x00EE)) (withStack 1 0x300 (withSp 1 (start 0x00EE))) ∧
    (withSp 1 (start 0x00EE)).stack ≠ (withStack 1 0x300 (withSp 1 (start 0x00EE))).stack :=
  ⟨⟨rfl, by decide⟩, by decide⟩

end Sys2Proof.Tests
end

section
/-! The invariant through the host's transactions (R8): creation has it, every step and every other body keeps it, and a halted machine never runs again. -/

namespace Sys2Proof.Machine

/-! ### What an update must leave for the invariant to hold -/

/-- A store inside the array keeps the invariant, with the configuration kept and at most one report. -/
theorem inv_of_writeBytes {s t : State} {a : Nat} {bs : List Byte} (h : s.Inv) (hp : t.params = s.params)
    (hr : t.reports.length ≤ 1) (hlen : a + bs.length ≤ s.memSize) (hm : t.mem = Memory.writeBytes s.mem a bs) : t.Inv := by
  obtain ⟨hwf, hbound, hfont, -⟩ := h
  have hsize : t.memSize = s.memSize := State.memSize_congr hp
  refine ⟨?_, ?_, ?_, hr⟩
  · rw [hm]; exact Memory.wf_writeBytes hwf a
  · rw [hm, hsize]; exact Memory.bound_writeBytes hbound hlen
  · rw [hp]; exact hfont

/-- An update that leaves memory alone keeps the invariant: it stores no bytes. -/
theorem inv_of_mem_eq {s t : State} (h : s.Inv) (hp : t.params = s.params) (hr : t.reports.length ≤ 1)
    (hm : t.mem = s.mem) : t.Inv :=
  inv_of_writeBytes (a := 0) (bs := []) h hp hr (Nat.zero_le _) hm

/-! ### Creation -/

/-- The program area begins inside memory of either size (R5). -/
theorem progStart_le_memSize (s : State) : Config.progStart ≤ s.memSize := by
  unfold State.memSize Config.progStart
  cases s.params.memSize <;> decide

/-- A machine created with legal parameters has the invariant (R34, R272). -/
theorem create_inv {p : Config.Params} (hp : p.wf = true) : (State.create p).Inv := by
  have hlen : 0 + (p.fontPreload.take Config.progStart).length ≤ (State.create p).memSize := by
    have := progStart_le_memSize (State.create p)
    have := List.length_take_le Config.progStart p.fontPreload
    omega
  exact ⟨Memory.wf_writeBytes Memory.wf_nil 0, Memory.bound_writeBytes (by simp) hlen, hp, Nat.zero_le 1⟩

/-! ### One step -/

/-- An instruction appends at most one report (R232). -/
theorem instrReports_length_le (s : State) (i : Instr) : (instrReports s i).length ≤ 1 := by
  unfold instrReports
  split
  · split <;> simp
  · split <;> simp
  · simp

/-- An instruction begun with an empty report list keeps the invariant. -/
theorem exec_beginStep_inv {i : Instr} {s t : State} (h : s.Inv) (he : exec i s.beginStep = .next t) : t.Inv := by
  have hp : t.params = s.params := (exec_params_status he).1
  have hr : t.reports.length ≤ 1 := by
    rw [exec_reports he]; exact instrReports_length_le s.beginStep i
  obtain hm | ⟨bs, hlen, hm⟩ := exec_mem he
  · exact inv_of_mem_eq h hp hr hm
  · exact inv_of_writeBytes h hp hr hlen hm

/-- The report of an unrecognized word is the step's only one, and nothing else that the invariant speaks of changes (R105). -/
theorem execUnrecognized_beginStep_inv {w : Word} {s t : State} (h : s.Inv)
    (he : execUnrecognized w s.beginStep = .next t) : t.Inv := by
  cases he
  exact inv_of_mem_eq h rfl (Nat.le_refl 1) rfl

/-- A step keeps the invariant. -/
theorem step_inv {s t : State} (h : s.Inv) (hst : step s = .next t) : t.Inv := by
  obtain ⟨r, -, he⟩ | ⟨-, -, he⟩ | ⟨w, why, -, -, -, he⟩ | ⟨w, i, -, -, -, he⟩ := step_cases s <;> rw [he] at hst
  · cases hst
  · cases hst
  · exact execUnrecognized_beginStep_inv h hst
  · exact exec_beginStep_inv h hst

/-! ### One transaction -/

/-- A transaction that leaves the machine running keeps the invariant; a fatal step, whose contents are unspecified, leaves it halted (R234). -/
theorem transact_inv {free s t : State} {a : Transaction} {r : Reply} (h : s.Inv) (ht : transact free a s = some (t, r))
    (hrun : t.status = .running) : t.Inv := by
  have ⟨_, _, _, hr⟩ := h
  obtain rfl | ⟨-, -, hst⟩ | ⟨why, -, -, -, rfl⟩ | ⟨-, -, rfl⟩ | ⟨image, -, -, hfit, rfl⟩ | ⟨k, -, -, rfl⟩ :=
    transact_cases ht
  · exact h
  · exact step_inv h hst
  · rw [State.halt_status] at hrun; cases hrun
  · exact inv_of_mem_eq h rfl hr rfl
  · exact inv_of_writeBytes h rfl hr hfit rfl
  · exact inv_of_mem_eq h rfl hr rfl

/-- No transaction sets a halted machine running again (R234). -/
theorem running_of_transact {free s t : State} {a : Transaction} {r : Reply} (ht : transact free a s = some (t, r))
    (hrun : t.status = .running) : s.status = .running := by
  obtain rfl | ⟨hs, -⟩ | ⟨_, hs, -⟩ | ⟨hs, -⟩ | ⟨_, hs, -⟩ | ⟨_, hs, -⟩ := transact_cases ht
  · exact hrun
  all_goals exact hs

/-! ### The statements -/

/-- Settles O58: the cases of one transaction, with the step's in `step_inv`. -/
theorem transactionsKeepInvariant : Obligations.TransactionsKeepInvariant := by
  unfold Obligations.TransactionsKeepInvariant
  intro free s t a r h ht hrun
  exact transact_inv h ht hrun

/-- Settles O17, by induction on the run: creation has the invariant, and a running state was reached from a running one. -/
theorem reachableRunningStatesSatisfyInvariant : Obligations.ReachableRunningStatesSatisfyInvariant := by
  unfold Obligations.ReachableRunningStatesSatisfyInvariant
  intro s hs
  induction hs with
  | created p hp => intro _; exact create_inv hp
  | after free s t a r _ ht ih =>
    intro hrun
    have hinv : s.Inv := ih (running_of_transact ht hrun)
    exact transact_inv hinv ht hrun

end Sys2Proof.Machine
end

section
/-! The state at creation: its invariant and the value of each element (R34, R272). -/

namespace Sys2Proof.Machine

/-- Settles O16: `reset` is creation with the default parameters, and every creation with legal parameters has the invariant. -/
theorem creationSatisfiesInvariant : Obligations.CreationSatisfiesInvariant := by
  unfold Obligations.CreationSatisfiesInvariant
  have hreset : State.create defaultParams = State.reset := rfl
  exact ⟨hreset ▸ create_inv (p := defaultParams) rfl, hreset, fun p hp => create_inv hp⟩

/-- Settles O18: the vectors are replicates of the creation value, and the font's bytes are what memory reads as (`create_readByte`). -/
theorem resetIsTheCreationState : Obligations.ResetIsTheCreationState := by
  unfold Obligations.ResetIsTheCreationState
  have hV : ∀ r, State.reset.reg r = 0x00 := fun r => Vector.getElem_replicate r.isLt
  have hstack : ∀ j : Fin 16, State.reset.stack[j] = 0x0000 := fun j => Vector.getElem_replicate j.isLt
  have hkey : ∀ k : Fin 16, State.reset.key[k] = false := fun k => Vector.getElem_replicate k.isLt
  have hFB : ∀ px py, Framebuffer.cell State.reset.FB px py = false := fun px py => by
    simp [Framebuffer.cell, State.reset]
  have hfont : ∀ p : Config.Params, p.wf = true → ∀ (j : Nat) (h : j < p.fontPreload.length),
      (State.create p).readByte j = p.fontPreload[j] := fun p hp j hj => by
    rw [State.create_readByte p hp, List.getD_eq_getElem _ _ hj]
  exact ⟨hV, rfl, rfl, hstack, rfl, rfl, rfl, hkey, hFB, fun _ => rfl, rfl, rfl, hfont⟩

end Sys2Proof.Machine
end

section
/-! The frame of the 34 instructions (R35), from the frame of the operations they are made of. -/

namespace Sys2Proof.Machine

/-! ### What each operation on the state leaves unchanged -/

theorem SameBut.refl (c : Elem → Prop) (s : State) : SameBut c s s := fun e _ => by cases e <;> rfl

theorem SameBut.trans {c : Elem → Prop} {s t u : State} (hst : SameBut c s t) (htu : SameBut c t u) : SameBut c s u :=
  fun e he => by cases e <;> exact Eq.trans (htu _ he) (hst _ he)

section
variable {c : Elem → Prop} {s t : State} (h : SameBut c s t)
include h

theorem SameBut.setReg {x : Reg} (hx : c (.V x)) (v : Byte) : SameBut c s (t.setReg x v) := by
  refine h.trans fun e he => ?_
  cases e
  case V r =>
    have hne : r ≠ x := by rintro rfl; exact he hx
    exact (State.setReg_reg t x r v).trans (if_neg hne)
  all_goals rfl

theorem SameBut.setI (hI : c .I) (v : Addr) : SameBut c s (t.setI v) := by
  refine h.trans fun e he => ?_
  cases e
  case I => exact absurd hI he
  all_goals rfl

theorem SameBut.setDT (hDT : c .DT) (v : Byte) : SameBut c s (t.setDT v) := by
  refine h.trans fun e he => ?_
  cases e
  case DT => exact absurd hDT he
  all_goals rfl

theorem SameBut.setST (hST : c .ST) (v : Byte) : SameBut c s (t.setST v) := by
  refine h.trans fun e he => ?_
  cases e
  case ST => exact absurd hST he
  all_goals rfl

theorem SameBut.setPc (hpc : c .pc) (v : Addr) : SameBut c s (t.setPc v) := by
  refine h.trans fun e he => ?_
  cases e
  case pc => exact absurd hpc he
  all_goals rfl

theorem SameBut.setFB (hFB : ∀ px py, c (.FB px py)) (fb : Framebuffer) : SameBut c s (t.setFB fb) := by
  refine h.trans fun e he => ?_
  cases e
  case FB px py => exact absurd (hFB px py) he
  all_goals rfl

theorem SameBut.nextDraw (hdraws : c .draws) : SameBut c s t.nextDraw := by
  refine h.trans fun e he => ?_
  cases e
  case draws => exact absurd hdraws he
  all_goals rfl

theorem SameBut.addReport (hreports : c .reports) (r : Report) : SameBut c s (t.addReport r) := by
  refine h.trans fun e he => ?_
  cases e
  case reports => exact absurd hreports he
  all_goals rfl

theorem SameBut.popPc (hsp : c .sp) (hpc : c .pc) : SameBut c s t.popPc := by
  refine h.trans fun e he => ?_
  cases e
  case sp => exact absurd hsp he
  case pc => exact absurd hpc he
  all_goals rfl

theorem SameBut.push (hstack : c (.stack (Fin.ofNat 16 t.sp.val))) (hsp : c .sp) (v : Addr) : SameBut c s (t.push v) := by
  refine h.trans fun e he => ?_
  cases e
  case stack j =>
    have hne : t.sp.val ≠ j.val := by
      intro hj
      have : Fin.ofNat 16 t.sp.val = j := Fin.ext (by simp [hj])
      exact he (this ▸ hstack)
    exact Vector.getElem_setIfInBounds_ne j.isLt hne
  case sp => exact absurd hsp he
  all_goals rfl

theorem SameBut.storeBytes {a : Nat} {bs : List Byte} (hmem : ∀ b, a ≤ b → b < a + bs.length → c (.mem b)) :
    SameBut c s (t.storeBytes a bs) := by
  refine h.trans fun e he => ?_
  cases e
  case mem b =>
    have hout : ¬ (a ≤ b ∧ b < a + bs.length) := fun hb => he (hmem b hb.1 hb.2)
    exact (State.storeBytes_readByte t a b bs).trans (if_neg hout)
  all_goals rfl

theorem SameBut.loadRegs {n : Nat} (hV : ∀ r : Reg, r.val < n → c (.V r)) (hn : n ≤ 16) (a : Nat) :
    SameBut c s (t.loadRegs a n) := by
  induction n with
  | zero => exact h
  | succ n ih =>
    have hlast : (Fin.ofNat 16 n).val < n + 1 := by simp; omega
    exact (ih (fun r hr => hV r (by omega)) (by omega)).setReg (hV _ hlast) _

theorem SameBut.writeResultAndFlag {x : Reg} (hx : c (.V x)) (hVF : c (.V VF)) (v f : Byte) :
    SameBut c s (t.writeResultAndFlag x v f) := by
  unfold State.writeResultAndFlag
  split
  · exact (h.setReg hx v).setReg hVF f
  · exact (h.setReg hVF f).setReg hx v

end

/-! ### The frame of the instructions (R35) -/

theorem SameBut.of_ifInRange {c : Elem → Prop} {s t u : State} {base len : Nat}
    (h : s.ifInRange base len (.next u) = .next t) (hu : SameBut c s u) : SameBut c s t := by
  obtain ⟨-, rfl⟩ := State.ifInRange_eq_next.1 h
  exact hu

/-- A key skip writes `pc` alone. -/
theorem skipOnKey_frame {c : Elem → Prop} {s t : State} {x : Reg} {pressed : Bool} (hpc : c .pc)
    (h : s.skipOnKey x pressed = .next t) : SameBut c s t := by
  unfold State.skipOnKey at h
  split at h
  · cases h
  · cases h; exact (SameBut.refl c s).setPc hpc _

/-- Each instruction is a chain of operations on elements its rule names, `pc` last. -/
theorem exec_frame {i : Instr} {s t : State} (h : exec i s = .next t) : SameBut (mayWrite i s) s t := by
  have hpc : mayWrite i s .pc := .inl rfl
  have hs : SameBut (mayWrite i s) s s := SameBut.refl _ s
  cases i
  case cls => cases h; exact (hs.setFB (fun px py => .inr ⟨px, py, rfl⟩) _).setPc hpc _
  case ret =>
    simp only [exec, execRet] at h
    split at h <;> cases h
    · exact hs.popPc (.inr (.inl rfl)) hpc
    · exact hs.addReport (.inr (.inr rfl)) _
  case callAddr nnn =>
    have hreported := hs.addReport (.inr (.inr (.inr rfl))) (.stackOverflow s.pc)
    simp only [exec, execCallAddr] at h
    split at h
    · cases h; exact (hs.push (.inr (.inl rfl)) (.inr (.inr (.inl rfl))) _).setPc hpc _
    · split at h <;> cases h
      · exact hreported.setPc hpc _
      · exact hreported
  case addVxVy x y | subVxVy x y | subnVxVy x y =>
    cases h; exact (hs.writeResultAndFlag (.inr (.inl rfl)) (.inr (.inr rfl)) _ _).setPc hpc _
  case shrVx x y | shlVx x y =>
    cases h; exact ((hs.setReg (.inr (.inr rfl)) _).setReg (.inr (.inl rfl)) _).setPc hpc _
  case rndVxByte x kk =>
    cases h; exact ((hs.nextDraw (.inr (.inr rfl))).setReg (.inr (.inl rfl)) _).setPc hpc _
  case drw x y n =>
    exact .of_ifInRange h
      (((hs.setFB (fun px py => .inr (.inr ⟨px, py, rfl⟩)) _).setReg (.inr (.inl rfl)) _).setPc hpc _)
  case skpVx x | sknpVx x => exact skipOnKey_frame hpc h
  case ldVxK x =>
    simp only [exec, execLdVxK] at h
    split at h <;> cases h
    · exact (hs.setReg (.inr rfl) _).setPc hpc _
    · exact hs
  case ldDTVx x => cases h; exact (hs.setDT (.inr rfl) _).setPc hpc _
  case ldSTVx x => cases h; exact (hs.setST (.inr rfl) _).setPc hpc _
  case ldBVx x =>
    exact .of_ifInRange h ((hs.storeBytes (bs := bcdDigits (s.reg x)) fun a hlo hhi => .inr ⟨a, rfl, hlo, hhi⟩).setPc hpc _)
  case ldMemVx x =>
    refine .of_ifInRange h ((hs.storeBytes fun a hlo hhi => .inr ⟨a, rfl, hlo, ?_⟩).setPc hpc _)
    rwa [State.regsThrough_length] at hhi
  case ldVxMem x =>
    refine .of_ifInRange h ((hs.loadRegs (fun r hr => .inr ⟨r, rfl, ?_⟩) x.isLt _).setPc hpc _)
    exact Nat.lt_succ_iff.1 hr
  case ldIAddr nnn | addIVx x | ldFVx x => cases h; exact (hs.setI (.inr rfl) _).setPc hpc _
  case ldVxByte x kk | addVxByte x kk | ldVxVy x y | orVxVy x y | andVxVy x y | xorVxVy x y | ldVxDT x =>
    cases h; exact (hs.setReg (.inr rfl) _).setPc hpc _
  case jpAddr nnn | jpV0Addr nnn | seVxByte x kk | sneVxByte x kk | seVxVy x y n | sneVxVy x y n =>
    cases h; exact hs.setPc hpc _

/-- Settles O13, by the frame of each operation an instruction is made of. -/
theorem instructionsWriteOnlyWhatIsNamed : Obligations.InstructionsWriteOnlyWhatIsNamed := by
  unfold Obligations.InstructionsWriteOnlyWhatIsNamed
  intro i s t h
  exact exec_frame h

end Sys2Proof.Machine
end

section
/-! Elements whose values most instructions cannot tell apart: the keypad (R28), `ST` and `tone` (R27, R31), and the stack entries not in use (R25). -/

namespace Sys2Proof.Machine

open Sys2Proof.Claims

/-! ### Elements that few instructions touch -/

/-- New values for some of the elements that few instructions touch: the stack's entries (`RET`, `CALL`), the keypad (`SKP`, `SKNP`, `LD Vx, K`), `ST` (`LD ST, Vx`) and `tone` (none). -/
structure Override where
  stack : Option (Vector Addr 16) := none
  key   : Option (Vector Bool 16) := none
  ST    : Option Byte := none
  tone  : Option Bool := none

/-- The state with the new values in place. -/
def State.override (o : Override) (s : State) : State :=
  { s with stack := o.stack.getD s.stack, key := o.key.getD s.key, ST := o.ST.getD s.ST, tone := o.tone.getD s.tone }

/-- Is the instruction one of the two that use the stack's entries (R120, R122)? -/
def usesStack : Instr → Bool
  | .ret | .callAddr _ => true
  | _ => false

section
variable (o : Override) (s : State)

theorem State.writeResultAndFlag_override (x : Reg) (v f : Byte) :
    (s.override o).writeResultAndFlag x v f = (s.writeResultAndFlag x v f).override o := by
  unfold State.writeResultAndFlag State.override
  cases s.params.arithFlagOrder <;> rfl

theorem State.loadRegs_override (base n : Nat) : (s.override o).loadRegs base n = (s.loadRegs base n).override o := by
  induction n with
  | zero => rfl
  | succ n ih => rw [State.loadRegs, ih]; rfl

theorem State.ifInRange_override {u u' : State} (h : u' = u.override o) (base len : Nat) :
    (s.override o).ifInRange base len (.next u') = mapNext (·.override o) (s.ifInRange base len (.next u)) := by
  have hfirst : (s.override o).firstOutOfRange base len = s.firstOutOfRange base len :=
    State.firstOutOfRange_congr rfl base len
  unfold State.ifInRange
  rw [hfirst, h]
  cases s.firstOutOfRange base len <;> rfl

theorem State.skipOnKey_override (hkey : o.key = none) (x : Reg) (pressed : Bool) :
    (s.override o).skipOnKey x pressed = mapNext (·.override o) (s.skipOnKey x pressed) := by
  have hkeys : (s.override o).key = s.key := by simp [State.override, hkey]
  have hreg : (s.override o).reg x = s.reg x := rfl
  unfold State.skipOnKey
  rw [hreg, hkeys]
  cases keyIndex (s.reg x) <;> rfl

theorem State.lowestPressed_override (hkey : o.key = none) : (s.override o).lowestPressed = s.lowestPressed := by
  simp only [State.lowestPressed, State.override, hkey, Option.getD_none]

theorem execRet_override (hstack : o.stack = none) : execRet (s.override o) = mapNext (·.override o) (execRet s) := by
  obtain ⟨_, _, _, _⟩ := o
  cases hstack
  unfold execRet State.override
  by_cases hsp : 0 < s.sp.val
  · simp only [if_pos hsp]; rfl
  · simp only [if_neg hsp]; rfl

theorem execCallAddr_override (hstack : o.stack = none) (nnn : BitVec 12) :
    execCallAddr nnn (s.override o) = mapNext (·.override o) (execCallAddr nnn s) := by
  obtain ⟨_, _, _, _⟩ := o
  cases hstack
  unfold execCallAddr State.override
  by_cases hsp : s.sp.val < 16
  · simp only [if_pos hsp]; rfl
  · simp only [if_neg hsp]; cases s.params.callOverflowPc <;> rfl

end

/-- New values of elements an instruction does not use make no difference to it, and stay. -/
theorem exec_override {o : Override} {i : Instr} (hstack : usesStack i = true → o.stack = none)
    (hkey : readsKeypad i = true → o.key = none) (hST : writesST i = true → o.ST = none) (s : State) :
    exec i (s.override o) = mapNext (·.override o) (exec i s) := by
  have hread : ∀ a n, (s.override o).readBytes a n = s.readBytes a n := State.readBytes_congr rfl
  cases i
  case ret => exact execRet_override o s (hstack rfl)
  case callAddr nnn => exact execCallAddr_override o s (hstack rfl) nnn
  case addVxVy x y | subVxVy x y | subnVxVy x y =>
    exact congrArg (fun t => Host.Outcome.next t.advance) (State.writeResultAndFlag_override o s x _ _)
  case skpVx x | sknpVx x => exact State.skipOnKey_override o s (hkey rfl) x _
  case ldVxK x =>
    simp only [exec, execLdVxK, State.lowestPressed_override o s (hkey rfl)]
    cases s.lowestPressed <;> rfl
  case ldSTVx x =>
    obtain ⟨_, _, _, _⟩ := o
    cases hST rfl
    rfl
  case drw x y n =>
    simp only [exec, execDrw, hread]
    exact State.ifInRange_override o s (by rfl) _ _
  case ldBVx x | ldMemVx x => exact State.ifInRange_override o s (by rfl) _ _
  case ldVxMem x =>
    simp only [exec, execLdVxMem, State.loadRegs_override]
    exact State.ifInRange_override o s (by rfl) _ _
  all_goals rfl

/-- Settles O55: `LD ST, Vx` overwrites `ST`; no other instruction uses `ST`, and none `tone`. -/
theorem soundStateIsInvisibleToInstructions : Obligations.SoundStateIsInvisibleToInstructions := by
  unfold Obligations.SoundStateIsInvisibleToInstructions
  intro i s a b
  cases hST : writesST i with
  | true =>
    cases i
    case ldSTVx x => rfl
    all_goals cases hST
  | false =>
    exact exec_override (o := { ST := some a, tone := some b }) (fun _ => rfl) (fun _ => rfl)
      (fun h => absurd h (by simp [hST])) s

/-- Settles O56, with new values for the keypad alone. -/
theorem keypadIsInvisibleToOtherInstructions : Obligations.KeypadIsInvisibleToOtherInstructions := by
  unfold Obligations.KeypadIsInvisibleToOtherInstructions
  intro i s keys hi
  exact exec_override (o := { key := some keys }) (fun _ => rfl) (fun h => absurd h (by simp [hi])) (fun _ => rfl) s

/-! ### Stale stack entries (R25) -/

/-- Stack entries that are those of `s` where they are in use. -/
def SameInUse (s : State) (stack : Vector Addr 16) : Prop := ∀ j : Fin 16, j.val < s.sp.val → stack[j] = s.stack[j]

/-- Only `RET` and `CALL` may write a stack entry or `sp`. -/
theorem usesStack_of_mayWrite {i : Instr} {s : State} (h : (∃ j, mayWrite i s (.stack j)) ∨ mayWrite i s .sp) :
    usesStack i = true := by
  cases i <;> simp [mayWrite, usesStack] at h ⊢

/-- The other instructions keep the stack. -/
theorem exec_stack_sp {i : Instr} {s t : State} (hi : usesStack i = false) (h : exec i s = .next t) :
    (∀ j : Fin 16, t.stack[j] = s.stack[j]) ∧ t.sp = s.sp := by
  have hnone : ¬ ((∃ j, mayWrite i s (.stack j)) ∨ mayWrite i s .sp) := fun hw => by
    rw [usesStack_of_mayWrite hw] at hi; cases hi
  have hframe := exec_frame h
  exact ⟨fun j => hframe (.stack j) fun hw => hnone (.inl ⟨j, hw⟩), hframe .sp fun hw => hnone (.inr hw)⟩

theorem agree_mapNext {R : State → State → Prop} {f : State → State} {r : Result} (h : ∀ u, r = .next u → R u (f u)) :
    Agree R r (mapNext f r) := by
  cases r with
  | next u => exact h u rfl
  | fault f => rfl
  | refused f => rfl

section
variable {s : State} {stack : Vector Addr 16} (h : SameInUse s stack)
include h

/-- `RET` reads the entry at `sp - 1`, which is in use. -/
theorem execRet_stale : Agree SameUpToStaleStack (execRet s) (execRet { s with stack := stack }) := by
  unfold execRet
  by_cases hsp : 0 < s.sp.val
  · have htop : stack[s.sp.val - 1] = s.stack[s.sp.val - 1] := h ⟨s.sp.val - 1, by omega⟩ (by simp; omega)
    simp only [if_pos hsp]
    refine ⟨by simp only [State.popPc, htop], fun j hj => h j ?_⟩
    simp only [State.popPc_sp] at hj
    omega
  · simp only [if_neg hsp]
    exact ⟨rfl, h⟩

/-- `CALL` writes the entry at `sp`, the one that comes into use. -/
theorem execCallAddr_stale (nnn : BitVec 12) :
    Agree SameUpToStaleStack (execCallAddr nnn s) (execCallAddr nnn { s with stack := stack }) := by
  unfold execCallAddr
  by_cases hsp : s.sp.val < 16
  · simp only [if_pos hsp]
    refine ⟨rfl, fun j hj => ?_⟩
    simp only [State.setPc_stack, State.push_stack, State.setPc_sp, State.push_sp, Fin.getElem_fin,
      Vector.getElem_setIfInBounds] at hj ⊢
    split
    · rfl
    · exact h j (by omega)
  · simp only [if_neg hsp]
    cases s.params.callOverflowPc
    · exact ⟨rfl, h⟩
    · exact ⟨rfl, h⟩

/-- Every instruction agrees on stale entries: `RET` and `CALL` keep to the entries in use, the others use none. -/
theorem exec_stale (i : Instr) : Agree SameUpToStaleStack (exec i s) (exec i { s with stack := stack }) := by
  cases hi : usesStack i with
  | true =>
    cases i
    case ret => exact execRet_stale h
    case callAddr nnn => exact execCallAddr_stale h nnn
    all_goals cases hi
  | false =>
    have hexec : exec i { s with stack := stack } = mapNext (·.override { stack := some stack }) (exec i s) :=
      exec_override (o := { stack := some stack }) (fun hu => absurd hu (by simp [hi])) (fun _ => rfl) (fun _ => rfl) s
    rw [hexec]
    refine agree_mapNext fun u hu => ?_
    obtain ⟨hstack, hsp⟩ := exec_stack_sp hi hu
    exact ⟨rfl, fun j hj => (h j (hsp ▸ hj)).trans (hstack j).symm⟩

/-- A step is halted, faults at the fetch, reports an unrecognized word or executes: which of these, and what it decodes, does not depend on the stack. -/
theorem step_stale : Agree SameUpToStaleStack (step s) (step { s with stack := stack }) := by
  obtain ⟨r, hs, he⟩ | ⟨hs, hf, he⟩ | ⟨w, why, hs, hf, hd, he⟩ | ⟨w, i, hs, hf, hd, he⟩ := step_cases s <;> rw [he]
  · rw [step_halted (s := { s with stack := stack }) hs]; rfl
  · rw [step_fetchFault (s := { s with stack := stack }) hs hf]; rfl
  · rw [step_unrecognized (s := { s with stack := stack }) hs hf hd]; exact ⟨rfl, h⟩
  · rw [step_instr (s := { s with stack := stack }) hs hf hd]; exact exec_stale (s := s.beginStep) h i

end

/-- Settles O57: the second machine is the first with other stale entries. -/
theorem staleStackEntriesAreInvisible : Obligations.StaleStackEntriesAreInvisible := by
  unfold Obligations.StaleStackEntriesAreInvisible
  intro s t hst
  obtain ⟨ht, hstack⟩ := hst
  rw [ht]
  exact step_stale hstack

end Sys2Proof.Machine
end

section
/-! Memory: the step's part of the invariant (R50, R272), and bytes stored where the next step fetches (R63). -/

namespace Sys2Proof.Machine

open Sys2Proof.Claims

/-- Settles O15, by the cases of one step (`step_inv`). -/
theorem stepKeepsInvariant : Obligations.StepKeepsInvariant := by
  unfold Obligations.StepKeepsInvariant
  intro s t h hst
  exact step_inv h hst

/-! ### A store into code -/

/-- In range, a register dump stores `V[0]` to `V[x]` from `I` on and advances (R174). -/
theorem exec_ldMemVx_of_inRange {s : State} {x : Reg} (h : InRange s s.I.toNat (x.val + 1)) :
    exec (.ldMemVx x) s = .next (s.storeBytes s.I.toNat (s.regsThrough x)).advance :=
  State.ifInRange_of_inRange h _

/-- After a register dump at `base`, the byte at `base + j` is `V[j]` (R174). -/
theorem storeBytes_regsThrough_readByte (s : State) (base : Nat) {x j : Reg} (hj : j ≤ x) :
    (s.storeBytes base (s.regsThrough x)).readByte (base + j.val) = s.reg j := by
  have hin : base ≤ base + j.val ∧ base + j.val < base + (s.regsThrough x).length := by
    have : j.val ≤ x.val := hj
    rw [State.regsThrough_length]; omega
  rw [State.storeBytes_readByte, if_pos hin, Nat.add_sub_cancel_left, State.regsThrough_getD s x j hj]

/-- Where both bytes at `pc` are memory, the fetch answers their big-endian word (R56, R101). -/
theorem exists_fetch_of_lt_memSize {s : State} (h : s.pc.toNat + 1 < s.memSize) :
    ∃ w, s.fetch = some w ∧ w.toNat = (s.readByte s.pc.toNat).toNat * 256 + (s.readByte (s.pc.toNat + 1)).toNat := by
  have hsome : s.fetch ≠ none := by rw [ne_eq, State.fetch_eq_none]; omega
  obtain ⟨w, hw⟩ := Option.ne_none_iff_exists'.1 hsome
  exact ⟨w, hw, (State.fetch_eq_some.1 hw).2⟩

/-- Settles O41: the dump's next `pc` is `I`, and the two bytes there are the `V[0]` and `V[1]` it stored. -/
theorem storeIntoCodeIsFetchedNext : Obligations.StoreIntoCodeIsFetchedNext := by
  unfold Obligations.StoreIntoCodeIsFetchedNext
  intro x s hI hx hrange
  have hpc : s.pc + 2 = s.I := by bv_omega
  have hmem : s.I.toNat + 1 < s.memSize := hrange _ (Nat.le_succ _) (by omega)
  have hbyte0 := storeBytes_regsThrough_readByte s s.I.toNat (x := x) (j := 0) (Fin.zero_le x)
  have hbyte1 := storeBytes_regsThrough_readByte s s.I.toNat (x := x) (j := 1) hx
  obtain ⟨w, hfetch, hw⟩ := exists_fetch_of_lt_memSize (s := (s.storeBytes s.I.toNat (s.regsThrough x)).advance)
    (by rwa [State.advance_pc, State.storeBytes_pc, hpc, State.advance_memSize, State.storeBytes_memSize])
  refine ⟨_, w, exec_ldMemVx_of_inRange hrange, hfetch, ?_⟩
  rw [hw, State.advance_pc, State.storeBytes_pc, hpc, State.advance_readByte, State.advance_readByte]
  exact congrArg₂ (fun hi lo : Byte => hi.toNat * 256 + lo.toNat) hbyte0 hbyte1

end Sys2Proof.Machine
end

section
/-! The encoding: a decoded word and its instruction, the words R76 rejects, and the rows of the opcode table (R74 to R76). -/

namespace Sys2Proof

open Sys2Proof.Claims

/-! ### The word of an instruction decodes to it -/

/-- Every instruction's word has its row's fixed fields and its operands. -/
theorem rowPattern : ∀ i : Instr, Laws.RowPattern.Statement i
  | .cls => Laws.RowPattern.cls
  | .ret => Laws.RowPattern.ret
  | .jpAddr nnn | .callAddr nnn | .ldIAddr nnn | .jpV0Addr nnn => wordNNN_fields (by decide) nnn
  | .seVxByte x kk | .sneVxByte x kk | .ldVxByte x kk | .addVxByte x kk | .rndVxByte x kk =>
    wordXKK_fields (by decide) x kk
  | .seVxVy x y n | .sneVxVy x y n | .drw x y n => wordXYN_fields (by decide) x y n
  | .ldVxVy x y | .orVxVy x y | .andVxVy x y | .xorVxVy x y | .addVxVy x y | .subVxVy x y | .shrVx x y | .subnVxVy x y
  | .shlVx x y => wordXYN_fields (by decide) x y _
  | .skpVx x | .sknpVx x | .ldVxDT x | .ldVxK x | .ldDTVx x | .ldSTVx x | .addIVx x | .ldFVx x | .ldBVx x | .ldMemVx x
  | .ldVxMem x => wordXKK_fields (by decide) x _

/-- The word of a well-formed instruction decodes to it (R74, R75): the word's fields choose the arm of `decode`. -/
theorem decode_encode {p : Config.Params} {i : Instr} (hwf : i.wellFormed p = true) : decode p (encode i) = .instr i := by
  have h := rowPattern i
  cases i with
  | cls | ret => rfl
  | jpAddr | callAddr | ldIAddr =>
    obtain ⟨hop, hnnn⟩ := h
    simp only [decode, hop, hnnn]
  | jpV0Addr =>
    obtain ⟨hop, hnnn⟩ := h
    have hmode : p.bnnnMode = .jumpV0 := of_decide_eq_true hwf
    simp only [decode, hop, decodeGroupB, hmode, hnnn]
  | seVxByte | sneVxByte | ldVxByte | addVxByte | rndVxByte =>
    obtain ⟨hop, hx, hkk⟩ := h
    simp only [decode, hop, hx, hkk]
  | seVxVy | sneVxVy =>
    obtain ⟨hop, hx, hy, hn⟩ := h
    simp only [Instr.wellFormed, Bool.or_eq_true, decide_eq_true_eq] at hwf
    simp only [decode, hop, decodeXYN, hx, hy, hn, if_pos hwf]
  | drw =>
    obtain ⟨hop, hx, hy, hn⟩ := h
    simp only [decode, hop, hx, hy, hn]
  | ldVxVy | orVxVy | andVxVy | xorVxVy | addVxVy | subVxVy | shrVx | subnVxVy | shlVx =>
    obtain ⟨hop, hx, hy, hn⟩ := h
    simp [decode, hop, decodeGroup8, hx, hy, hn]
  | skpVx | sknpVx =>
    obtain ⟨hop, hx, hkk⟩ := h
    simp [decode, hop, decodeGroupE, hx, hkk]
  | ldVxDT | ldVxK | ldDTVx | ldSTVx | addIVx | ldFVx | ldBVx | ldMemVx | ldVxMem =>
    obtain ⟨hop, hx, hkk⟩ := h
    simp [decode, hop, decodeGroupF, hx, hkk]

/-! ### What the decoder may answer for a word -/

/-- What a decoding of `w` must be: an instruction of the machine whose word is `w`, and then `w` is not listed in R76; or a rejection of a word that is (R75, R76). -/
def DecodingOf (p : Config.Params) (w : Word) : Decoded → Prop
  | .instr i => encode i = w ∧ i.wellFormed p = true ∧ ¬ UnrecognizedByR76 p w
  | .unrecognized _ => UnrecognizedByR76 p w

/-- A word of format `XYN` with a fixed sub-operation. -/
theorem wordXYN_of_nibble {w : Word} {op : Nat} {n : Fin 16} (hop : (opOf w).val = op) (hn : (nOf w).val = n.val) :
    wordXYN op (xOf w) (yOf w) n = w := by
  rw [← Fin.ext hn, wordXYN_of_fields hop]

/-- A word of format `X`, whose low byte is a fixed sub-operation. -/
theorem wordXKK_of_byte {w : Word} {op : Nat} {kk : Byte} (hop : (opOf w).val = op) (hkk : (kkOf w).toNat = kk.toNat) :
    wordXKK op (xOf w) kk = w := by
  rw [← BitVec.eq_of_toNat_eq hkk, wordXKK_of_fields hop]

section
variable {p : Config.Params} {w : Word}

/-! R76 for the words of one value of `op`. -/

theorem unrecognizedByR76_of_op0 (hop : (opOf w).val = 0x0) : UnrecognizedByR76 p w ↔ w ≠ 0x00E0 ∧ w ≠ 0x00EE := by
  simp [UnrecognizedByR76, ← opOf_val, hop]

theorem unrecognizedByR76_of_op8 (hop : (opOf w).val = 0x8) :
    UnrecognizedByR76 p w ↔ 8 ≤ (nOf w).val ∧ (nOf w).val ≤ 0xD ∨ (nOf w).val = 0xF := by
  simp [UnrecognizedByR76, ← opOf_val, nOf_val, hop]

theorem unrecognizedByR76_of_opB (hop : (opOf w).val = 0xB) : UnrecognizedByR76 p w ↔ p.bnnnMode = .unrecognized := by
  simp [UnrecognizedByR76, ← opOf_val, hop]

theorem unrecognizedByR76_of_opE (hop : (opOf w).val = 0xE) :
    UnrecognizedByR76 p w ↔ (kkOf w).toNat ≠ 0x9E ∧ (kkOf w).toNat ≠ 0xA1 := by
  simp [UnrecognizedByR76, ← opOf_val, kkOf_toNat, hop]

theorem unrecognizedByR76_of_opF (hop : (opOf w).val = 0xF) :
    UnrecognizedByR76 p w ↔ (kkOf w).toNat ∉ [0x07, 0x0A, 0x15, 0x18, 0x1E, 0x29, 0x33, 0x55, 0x65] := by
  simp [UnrecognizedByR76, ← opOf_val, kkOf_toNat, hop]

theorem unrecognizedByR76_of_op5_op9 (hop : (opOf w).val = 0x5 ∨ (opOf w).val = 0x9) :
    UnrecognizedByR76 p w ↔ ¬ (p.decode59 = .ignoreN ∨ nOf w = 0) := by
  have hn : w.toNat % 0x10 = 0 ↔ nOf w = 0 := by rw [← nOf_val, Fin.val_eq_zero_iff]
  have hmode : p.decode59 = .requireN0 ↔ p.decode59 ≠ .ignoreN := by cases p.decode59 <;> decide
  obtain hop | hop := hop <;> simp [UnrecognizedByR76, ← opOf_val, hop, hn, hmode, and_comm]

theorem not_unrecognizedByR76_of_op {op : Nat} (hop : (opOf w).val = op) (h : op ∉ [0x0, 0x5, 0x8, 0x9, 0xB, 0xE, 0xF]) :
    ¬ UnrecognizedByR76 p w := by
  simp only [List.mem_cons, List.not_mem_nil, or_false, not_or] at h
  simp [UnrecognizedByR76, ← opOf_val, hop, h]

/-! The groups of the decoder. -/

theorem decodeGroup0_spec (hop : (opOf w).val = 0x0) : DecodingOf p w (decodeGroup0 w) := by
  unfold decodeGroup0
  split_ifs with hcls hret
  · exact ⟨hcls.symm, rfl, fun h => ((unrecognizedByR76_of_op0 hop).1 h).1 hcls⟩
  · exact ⟨hret.symm, rfl, fun h => ((unrecognizedByR76_of_op0 hop).1 h).2 hret⟩
  · exact (unrecognizedByR76_of_op0 hop).2 ⟨hcls, hret⟩

theorem decodeXYN_spec {op : Nat} {c : Fin 16 → Fin 16 → Fin 16 → Instr} {why : Unrecognized} (hop : (opOf w).val = op)
    (h59 : op = 0x5 ∨ op = 0x9) (hword : ∀ x y n, encode (c x y n) = wordXYN op x y n)
    (hwf : ∀ x y n, (c x y n).wellFormed p = (p.decode59 = .ignoreN || n = 0)) :
    DecodingOf p w (decodeXYN p w c why) := by
  have h76 := unrecognizedByR76_of_op5_op9 (p := p) (hop ▸ h59)
  unfold decodeXYN
  split_ifs with hn
  · have hwell : (c (xOf w) (yOf w) (nOf w)).wellFormed p = true := by simpa [hwf] using hn
    exact ⟨(hword _ _ _).trans (wordXYN_of_fields hop), hwell, fun h => h76.1 h hn⟩
  · exact h76.2 hn

theorem decodeGroup8_spec (hop : (opOf w).val = 0x8) : DecodingOf p w (decodeGroup8 w) := by
  have h76 := unrecognizedByR76_of_op8 (p := p) hop
  unfold decodeGroup8
  split
  case h_10 =>
    simp only [imp_false] at *
    exact h76.2 (by omega)
  all_goals exact ⟨wordXYN_of_nibble hop ‹_›, rfl, fun h => by have := h76.1 h; omega⟩

theorem decodeGroupB_spec (hop : (opOf w).val = 0xB) : DecodingOf p w (decodeGroupB p w) := by
  have h76 := unrecognizedByR76_of_opB (p := p) hop
  unfold decodeGroupB
  split
  · next hmode => exact ⟨wordNNN_of_fields hop, decide_eq_true hmode, by rw [h76, hmode]; exact nofun⟩
  · next hmode => exact h76.2 hmode

theorem decodeGroupE_spec (hop : (opOf w).val = 0xE) : DecodingOf p w (decodeGroupE w) := by
  have h76 := unrecognizedByR76_of_opE (p := p) hop
  unfold decodeGroupE
  split
  case h_3 => exact h76.2 ⟨‹_›, ‹_›⟩
  all_goals exact ⟨wordXKK_of_byte hop ‹_›, rfl, fun h => by have := h76.1 h; omega⟩

theorem decodeGroupF_spec (hop : (opOf w).val = 0xF) : DecodingOf p w (decodeGroupF w) := by
  have h76 := unrecognizedByR76_of_opF (p := p) hop
  simp only [List.mem_cons, List.not_mem_nil, or_false] at h76
  unfold decodeGroupF
  split
  case h_10 =>
    simp only [imp_false] at *
    exact h76.2 (by omega)
  all_goals exact ⟨wordXKK_of_byte hop ‹_›, rfl, fun h => by have := h76.1 h; omega⟩

variable (p w) in
/-- Every answer of the decoder is right (R75, R76). -/
theorem decode_spec : DecodingOf p w (decode p w) := by
  unfold decode
  split
  case h_1 hop => exact decodeGroup0_spec hop
  case h_6 hop => exact decodeXYN_spec hop (.inl rfl) (fun _ _ _ => rfl) (fun _ _ _ => rfl)
  case h_9 hop => exact decodeGroup8_spec hop
  case h_10 hop => exact decodeXYN_spec hop (.inr rfl) (fun _ _ _ => rfl) (fun _ _ _ => rfl)
  case h_12 hop => exact decodeGroupB_spec hop
  case h_15 hop => exact decodeGroupE_spec hop
  case h_16 =>
    simp only [imp_false] at *
    exact decodeGroupF_spec (by omega)
  case h_2 hop | h_3 hop | h_11 hop =>
    exact ⟨wordNNN_of_fields hop, rfl, not_unrecognizedByR76_of_op hop (by decide)⟩
  case h_14 hop => exact ⟨wordXYN_of_fields hop, rfl, not_unrecognizedByR76_of_op hop (by decide)⟩
  case h_4 hop | h_5 hop | h_7 hop | h_8 hop | h_13 hop =>
    exact ⟨wordXKK_of_fields hop, rfl, not_unrecognizedByR76_of_op hop (by decide)⟩

/-- What an accepted word decodes to is well-formed and has that word. -/
theorem encode_of_decode {i : Instr} (h : decode p w = .instr i) : encode i = w ∧ i.wellFormed p = true := by
  obtain ⟨hword, hwf, -⟩ : DecodingOf p w (.instr i) := h ▸ decode_spec p w
  exact ⟨hword, hwf⟩

theorem exists_unrecognized_iff : (∃ why, decode p w = .unrecognized why) ↔ UnrecognizedByR76 p w := by
  have h := decode_spec p w
  cases hd : decode p w with
  | instr i =>
    obtain ⟨-, -, hnot⟩ : DecodingOf p w (.instr i) := hd ▸ h
    exact iff_of_false nofun hnot
  | unrecognized why =>
    have h76 : DecodingOf p w (.unrecognized why) := hd ▸ h
    exact iff_of_true ⟨why, rfl⟩ h76

end

/-! ### The rows of the opcode table -/

/-- A mask of the high nibble and the low `k` bits keeps `op` and those bits. -/
theorem and_highNibble_lowBits (w : Word) {k : Nat} (hk : k ≤ 12) :
    w.toNat &&& (0xF000 + (2 ^ k - 1)) = (opOf w).val * 0x1000 + w.toNat % 2 ^ k := by
  have hle : 2 ^ k ≤ 2 ^ 12 := Nat.pow_le_pow_right (by decide) hk
  have hdiv : (w.toNat &&& (0xF000 + (2 ^ k - 1))) / 2 ^ 12 = (opOf w).val := by
    rw [Nat.and_div_two_pow, show (0xF000 + (2 ^ k - 1)) / 2 ^ 12 = 2 ^ 4 - 1 by omega,
      Nat.and_two_pow_sub_one_eq_mod, ← opOf_val]
    exact Nat.mod_eq_of_lt (opOf w).isLt
  have hmod : (w.toNat &&& (0xF000 + (2 ^ k - 1))) % 2 ^ 12 = w.toNat % 2 ^ k := by
    rw [Nat.and_mod_two_pow, show (0xF000 + (2 ^ k - 1)) % 2 ^ 12 = 2 ^ k - 1 by omega,
      Nat.and_two_pow_sub_one_eq_mod]
    exact Nat.mod_mod_of_dvd _ (Nat.pow_dvd_pow 2 hk)
  rw [← hdiv, ← hmod]; exact (Nat.div_add_mod' _ _).symm

theorem and_0xFFFF (w : Word) : w.toNat &&& 0xFFFF = w.toNat :=
  (Nat.and_two_pow_sub_one_eq_mod w.toNat 16).trans (Nat.mod_eq_of_lt w.isLt)

theorem and_0xF000 (w : Word) : w.toNat &&& 0xF000 = (opOf w).val * 0x1000 :=
  (and_highNibble_lowBits w (k := 0) (by decide)).trans (by simp [Nat.mod_one])

theorem and_0xF00F (w : Word) : w.toNat &&& 0xF00F = (opOf w).val * 0x1000 + (nOf w).val := by
  rw [nOf_val]; exact and_highNibble_lowBits w (k := 4) (by decide)

theorem and_0xF0FF (w : Word) : w.toNat &&& 0xF0FF = (opOf w).val * 0x1000 + (kkOf w).toNat := by
  rw [kkOf_toNat]; exact and_highNibble_lowBits w (k := 8) (by decide)

/-- Two rows differ in a bit that both fix. -/
theorem opcodeTable_pairwise : opcodeTable.Pairwise fun a b => a.2 &&& b.1 ≠ b.2 &&& a.1 := by decide

/-- No word matches two rows. -/
theorem row_index_unique {v j k : Nat} {a b : Nat × Nat} (ha : opcodeTable[j]? = some a) (hb : opcodeTable[k]? = some b)
    (hva : v &&& a.1 = a.2) (hvb : v &&& b.1 = b.2) : j = k := by
  have hagree : a.2 &&& b.1 = b.2 &&& a.1 := by rw [← hva, ← hvb, Nat.land_assoc, Nat.land_assoc, Nat.land_comm a.1]
  obtain ⟨hj, rfl⟩ := List.getElem?_eq_some_iff.1 ha
  obtain ⟨hk, rfl⟩ := List.getElem?_eq_some_iff.1 hb
  have hdiff := List.pairwise_iff_getElem.1 opcodeTable_pairwise
  obtain hlt | heq | hgt := Nat.lt_trichotomy j k
  · exact absurd hagree (hdiff j k hj hk hlt)
  · exact heq
  · exact absurd hagree.symm (hdiff k j hk hj hgt)

/-- An instruction's word matches the instruction's own row. -/
theorem exists_row_of_encode (i : Instr) :
    ∃ row, opcodeTable[rowIndex i]? = some row ∧ (encode i).toNat &&& row.1 = row.2 := by
  have h := rowPattern i
  cases i with
  | cls | ret => exact ⟨_, rfl, rfl⟩
  | jpAddr | callAddr | seVxByte | sneVxByte | seVxVy | ldVxByte | addVxByte | sneVxVy | ldIAddr | jpV0Addr | rndVxByte
  | drw =>
    obtain ⟨hop, -⟩ := h
    exact ⟨_, rfl, by rw [and_0xF000, hop]⟩
  | ldVxVy | orVxVy | andVxVy | xorVxVy | addVxVy | subVxVy | shrVx | subnVxVy | shlVx =>
    obtain ⟨hop, -, -, hn⟩ := h
    exact ⟨_, rfl, by rw [and_0xF00F, hop, hn]; rfl⟩
  | skpVx | sknpVx | ldVxDT | ldVxK | ldDTVx | ldSTVx | addIVx | ldFVx | ldBVx | ldMemVx | ldVxMem =>
    obtain ⟨hop, -, hkk⟩ := h
    exact ⟨_, rfl, by rw [and_0xF0FF, hop, hkk]; rfl⟩

/-- A word of R76 matches no row, on a machine that has all the rows. -/
theorem not_matches_of_unrecognizedByR76 {p : Config.Params} {w : Word} (h59 : p.decode59 = .ignoreN)
    (hB : p.bnnnMode = .jumpV0) (h : UnrecognizedByR76 p w) : ∀ row ∈ opcodeTable, w.toNat &&& row.1 ≠ row.2 := by
  simp only [opcodeTable, List.cons_append, List.nil_append, List.forall_mem_cons, List.not_mem_nil, false_imp_iff,
    implies_true, and_true, and_0xFFFF, and_0xF000, and_0xF00F, and_0xF0FF, opOf_val, nOf_val, kkOf_toNat]
  simp only [UnrecognizedByR76, h59, hB, reduceCtorEq, and_false, or_false, false_or, ne_eq, ← BitVec.toNat_inj,
    BitVec.reduceToNat, List.mem_cons, List.not_mem_nil] at h
  obtain h0 | h8 | hE | hF := h <;> omega

/-- On a machine that has all the rows, a word matches a row exactly when it decodes to an instruction of that row. -/
theorem matches_row_iff {p : Config.Params} {w : Word} {k : Nat} {row : Nat × Nat} (h59 : p.decode59 = .ignoreN)
    (hB : p.bnnnMode = .jumpV0) (hrow : opcodeTable[k]? = some row) :
    w.toNat &&& row.1 = row.2 ↔ ∃ i, decode p w = .instr i ∧ rowIndex i = k := by
  constructor
  · intro hmatch
    cases hd : decode p w with
    | unrecognized why =>
      have h76 : UnrecognizedByR76 p w := exists_unrecognized_iff.1 ⟨why, hd⟩
      exact absurd hmatch (not_matches_of_unrecognizedByR76 h59 hB h76 row (List.mem_of_getElem? hrow))
    | instr i =>
      obtain ⟨rfl, -⟩ := encode_of_decode hd
      obtain ⟨own, hown, hmatchOwn⟩ := exists_row_of_encode i
      exact ⟨i, rfl, row_index_unique hown hrow hmatchOwn hmatch⟩
  · rintro ⟨i, hd, rfl⟩
    obtain ⟨rfl, -⟩ := encode_of_decode hd
    obtain ⟨own, hown, hmatchOwn⟩ := exists_row_of_encode i
    cases hown.symm.trans hrow
    exact hmatchOwn

/-! ### The statements -/

/-- Settles O1, by the formats of the instructions (`decode_encode`). -/
theorem decodeOfEncodeIsTheInstruction : Obligations.DecodeOfEncodeIsTheInstruction := by
  unfold Obligations.DecodeOfEncodeIsTheInstruction
  intro p i hwf
  exact decode_encode hwf

/-- Settles O2, by what a decoding of a word must be (`decode_spec`). -/
theorem encodeOfDecodeIsTheWord : Obligations.EncodeOfDecodeIsTheWord := by
  unfold Obligations.EncodeOfDecodeIsTheWord
  intro p w i h
  exact encode_of_decode h

/-- Settles O3, by what a decoding of a word must be (`decode_spec`). -/
theorem unrecognizedWordsAreThoseListed : Obligations.UnrecognizedWordsAreThoseListed := by
  unfold Obligations.UnrecognizedWordsAreThoseListed
  intro p w
  exact exists_unrecognized_iff

/-- Settles O4: a word that matches a row is none of R76, and its instruction's own row is the only one it matches. -/
theorem opcodeTableRowSelectsInstruction : Obligations.OpcodeTableRowSelectsInstruction := by
  unfold Obligations.OpcodeTableRowSelectsInstruction
  intro p w k row h59 hB hrow
  exact matches_row_iff h59 hB hrow

/-- Settles O5, by running the decoder on each word. -/
theorem exampleWordsDecode : Obligations.ExampleWordsDecode := by
  unfold Obligations.ExampleWordsDecode
  intro p
  exact ⟨rfl, rfl, rfl, rfl, rfl, rfl, rfl, rfl, rfl, rfl⟩

end Sys2Proof
end

section
/-! One step: where the program counter goes (R104, R127), the unrecognized word (R105), and the fetch fault (R102). -/

namespace Sys2Proof.Machine

open Sys2Proof.Claims

/-! ### The key skips, by their outcome (R210, R211, R216) -/

/-- A key skip goes on exactly where `V[x]` is a key's index, and tests that key. -/
theorem State.skipOnKey_eq_next {s t : State} {x : Reg} {pressed : Bool} :
    s.skipOnKey x pressed = .next t ↔ ∃ k : Fin 16, (s.reg x).toNat = k.val ∧ s.skipIf (s.key[k] = pressed) = t := by
  simp only [← keyIndex_eq_some]
  unfold State.skipOnKey
  cases keyIndex (s.reg x) <;> simp [raise]

/-- A key skip faults exactly where `V[x]` is no key's index. -/
theorem State.skipOnKey_eq_fault {s : State} {x : Reg} {pressed : Bool} {f : Fault} :
    s.skipOnKey x pressed = .fault f ↔ 15 < (s.reg x).toNat ∧ f = .fatal (.keyIndexOutOfRange (s.reg x)) := by
  rw [← keyIndex_eq_none]
  unfold State.skipOnKey
  cases keyIndex (s.reg x) <;> simp [raise, eq_comm]

/-! ### The program counter after each operation (R104) -/

/-- An entry inside a vector, looked up in its list with a default. -/
theorem getD_toList_of_lt {α : Type} {n j : Nat} (v : Vector α n) (h : j < n) (d : α) : v.toList.getD j d = v[j] := by
  rw [List.getD_eq_getElem _ _ (by rwa [Vector.length_toList]), Vector.getElem_toList]

/-- A skip leaves `pc` at the table's entry for its condition. -/
theorem State.skipIf_decide_pc (s : State) (taken : Prop) [Decidable taken] :
    (s.skipIf (decide taken)).pc = skipPc s taken := by
  simp only [State.skipIf_pc, decide_eq_true_eq, skipPc]

/-- A key skip leaves `pc` at the table's entry for the key that `V[x]` names. -/
theorem skipOnKey_pc {s t : State} {x : Reg} {pressed d : Bool} (h : s.skipOnKey x pressed = .next t) :
    t.pc = skipPc s (s.key.toList.getD (s.reg x).toNat d = pressed) := by
  obtain ⟨k, hk, rfl⟩ := State.skipOnKey_eq_next.1 h
  have hkey : s.key.toList.getD (s.reg x).toNat d = s.key[k] := by rw [hk, getD_toList_of_lt _ k.isLt]; rfl
  simp only [hkey, State.skipIf_decide_pc]

/-- `RET` goes to the entry at `sp - 1`, or stays on an empty stack (R120). -/
theorem execRet_pc {s t : State} (h : execRet s = .next t) : t.pc = nextPc .ret s := by
  have hsp := s.sp.isLt
  simp only [execRet] at h
  split at h <;> cases h <;> simp only [nextPc]
  · rw [if_neg (by omega), getD_toList_of_lt _ (by omega)]; rfl
  · rw [if_pos (by omega)]; rfl

/-- `CALL` goes to its address, or on a full stack advances or stays as `CALL_OVERFLOW_PC` says (R122). -/
theorem execCallAddr_pc {nnn : BitVec 12} {s t : State} (h : execCallAddr nnn s = .next t) :
    t.pc = nextPc (.callAddr nnn) s := by
  have hsp := s.sp.isLt
  simp only [execCallAddr] at h
  split at h
  · cases h
    simp only [nextPc]
    rw [if_neg (by omega)]; rfl
  · simp only [nextPc]
    rw [if_pos (by omega)]
    split at h <;> rename_i hmode <;> cases h <;> rw [hmode] <;> rfl

/-- `LD Vx, K` advances where some key is pressed, and stays where none is (R212). -/
theorem execLdVxK_pc {x : Reg} {s t : State} (h : execLdVxK x s = .next t) : t.pc = nextPc (.ldVxK x) s := by
  simp only [execLdVxK] at h
  simp only [nextPc]
  split at h <;> rename_i hlow <;> cases h
  · rw [if_pos ⟨_, (State.lowestPressed_eq_some.1 hlow).1⟩]; rfl
  · have hnone : ¬ ∃ k : Fin 16, s.key[k] = true := by simpa using State.lowestPressed_eq_none.1 hlow
    rw [if_neg hnone]

/-- After an access in range the default advance follows, from the `pc` before (R104). -/
theorem ifInRange_advance_pc {s t u : State} {base len : Nat} (h : s.ifInRange base len (.next u.advance) = .next t)
    (hu : u.pc = s.pc) : t.pc = s.pc + 2 := by
  obtain ⟨-, rfl⟩ := State.ifInRange_eq_next.1 h
  rw [State.advance_pc, hu]

/-- Each instruction leaves `pc` where the table says: a jump, a skip, or the default advance. -/
theorem exec_pc {i : Instr} {s t : State} (h : exec i s = .next t) : t.pc = nextPc i s := by
  cases i
  case ret => exact execRet_pc h
  case callAddr nnn => exact execCallAddr_pc h
  case seVxByte x kk | sneVxByte x kk | seVxVy x y n | sneVxVy x y n => cases h; exact State.skipIf_decide_pc s _
  case skpVx x | sknpVx x => exact skipOnKey_pc h
  case ldVxK x => exact execLdVxK_pc h
  case drw x y n | ldBVx x | ldMemVx x => exact ifInRange_advance_pc h rfl
  case ldVxMem x => exact ifInRange_advance_pc h (State.loadRegs_pc s _ _)
  case addVxVy x y | subVxVy x y | subnVxVy x y =>
    cases h; exact congrArg (· + 2) (State.writeResultAndFlag_pc s x _ _)
  all_goals cases h; rfl

/-- Settles O14, by the operation that writes `pc` in each instruction (`exec_pc`). -/
theorem programCounterFollowsTheTable : Obligations.ProgramCounterFollowsTheTable := by
  unfold Obligations.ProgramCounterFollowsTheTable
  refine ⟨fun i s t h => exec_pc h, fun w s t h => ?_⟩
  cases h
  rfl

/-! ### The unrecognized word (R105) -/

theorem SameBut.beginStep {c : Elem → Prop} {s t : State} (h : SameBut c s t) (hreports : c .reports) :
    SameBut c s t.beginStep := by
  refine h.trans fun e he => ?_
  cases e
  case reports => exact absurd hreports he
  all_goals rfl

/-- Settles O7: the step clears the report list, appends one report and advances. -/
theorem unrecognizedWordIsReportedAndSkipped : Obligations.UnrecognizedWordIsReportedAndSkipped := by
  unfold Obligations.UnrecognizedWordIsReportedAndSkipped
  intro s w why hrun hpc hw hdec
  have hfetch : s.fetch = some w := State.fetch_eq_some.2 ⟨hpc, hw⟩
  refine ⟨_, step_unrecognized hrun hfetch hdec, rfl, rfl, ?_⟩
  exact (((SameBut.refl _ s).beginStep (.inr rfl)).addReport (.inr rfl) _).setPc (.inl rfl) _

/-! ### The fetch fault (R102) -/

/-- An instruction that faults accessed an address out of range, or is a key skip whose register is no key's index (R231). -/
theorem exec_fault_cases {i : Instr} {s : State} {f : Fault} (h : exec i s = .fault f) :
    (∃ a, f = .fatal (.memOutOfBounds a) ∧ LowestOutside s s.I.toNat (accessLength i) a) ∨
    (∃ x, (i = .skpVx x ∨ i = .sknpVx x) ∧ 15 < (s.reg x).toNat ∧ f = .fatal (.keyIndexOutOfRange (s.reg x))) := by
  cases i
  case ret => simp only [exec, execRet] at h; split at h <;> cases h
  case callAddr nnn =>
    simp only [exec, execCallAddr] at h
    split at h
    · cases h
    · split at h <;> cases h
  case ldVxK x => simp only [exec, execLdVxK] at h; split at h <;> cases h
  case skpVx x => exact .inr ⟨x, .inl rfl, State.skipOnKey_eq_fault.1 h⟩
  case sknpVx x => exact .inr ⟨x, .inr rfl, State.skipOnKey_eq_fault.1 h⟩
  case drw x y n | ldBVx x | ldMemVx x | ldVxMem x => exact .inl (State.ifInRange_eq_fault.1 h)
  all_goals cases h

/-- Settles O8: of the four cases of a step only the failed fetch records a `FetchOutOfBounds`. -/
theorem fetchFaultExactlyOutsideMemory : Obligations.FetchFaultExactlyOutsideMemory := by
  unfold Obligations.FetchFaultExactlyOutsideMemory
  intro s a
  constructor
  · intro h
    obtain ⟨r, -, he⟩ | ⟨hrun, hfetch, he⟩ | ⟨w, why, -, -, -, he⟩ | ⟨w, i, -, -, -, he⟩ := step_cases s <;> rw [he] at h
    · cases h
    · cases h; exact ⟨hrun, rfl, State.fetch_eq_none.1 hfetch⟩
    · cases h
    · obtain ⟨_, hf, -⟩ | ⟨_, -, -, hf⟩ := exec_fault_cases h <;> cases hf
  · rintro ⟨hrun, rfl, hpc⟩
    exact step_fetchFault hrun (State.fetch_eq_none.2 hpc)

end Sys2Proof.Machine
end

section
/-! Control flow (41_control.md): return, jump, call and the register skips, each with the words that decode to it (R120 to R127). -/

namespace Sys2Proof.Machine

/-! ### Addresses -/

/-- Zero extension keeps the address (R72). -/
@[simp] theorem addrOf_toNat (nnn : BitVec 12) : (addrOf nnn).toNat = nnn.toNat :=
  BitVec.toNat_setWidth_of_le (by decide)

@[simp] theorem zext16_toNat (v : Byte) : (zext16 v).toNat = v.toNat :=
  BitVec.toNat_setWidth_of_le (by decide)

/-! ### The stack (R25) -/

/-- With room, a push puts its value at `sp`. -/
theorem State.push_stack_top {s : State} (hroom : s.sp.val < 16) (v : Addr) : (s.push v).stack[s.sp.val] = v :=
  Vector.getElem_setIfInBounds_self hroom

/-- A push leaves every other entry. -/
theorem State.push_stack_other (s : State) (v : Addr) {j : Fin 16} (hj : j.val ≠ s.sp.val) :
    (s.push v).stack[j] = s.stack[j] :=
  Vector.getElem_setIfInBounds_ne j.isLt hj.symm

/-- With room, a push brings one more entry into use. -/
theorem State.push_sp_val {s : State} (hroom : s.sp.val < 16) (v : Addr) : (s.push v).sp.val = s.sp.val + 1 :=
  Nat.min_eq_left hroom

/-- A pop right after a push, whatever else changed in between, goes to the value pushed at the depth before it. -/
theorem State.popPc_of_push {s t : State} {v : Addr} (hroom : s.sp.val < 16) (hstack : t.stack = (s.push v).stack)
    (hsp : t.sp = (s.push v).sp) : t.popPc.pc = v ∧ t.popPc.sp = s.sp := by
  have htop : t.sp.val - 1 = s.sp.val := by rw [hsp, State.push_sp_val hroom]; rfl
  refine ⟨?_, Fin.ext htop⟩
  simp only [State.popPc_pc, htop, hstack, State.push_stack_top hroom]

/-! ### Return and call, by their cases (R120, R122) -/

theorem exec_ret_of_pos {s : State} (h : 0 < s.sp.val) : exec .ret s = .next s.popPc := if_pos h

theorem exec_ret_of_empty {s : State} (h : s.sp.val = 0) : exec .ret s = .next (s.addReport (.stackUnderflow s.pc)) :=
  if_neg (by omega)

theorem exec_callAddr_of_room {s : State} (h : s.sp.val < 16) (nnn : BitVec 12) :
    exec (.callAddr nnn) s = .next ((s.push (s.pc + 2)).setPc (addrOf nnn)) := if_pos h

/-- On a full stack a call only reports, and advances or holds as `CALL_OVERFLOW_PC` says. -/
theorem exec_callAddr_of_full {s : State} (h : s.sp.val = 16) (nnn : BitVec 12) :
    exec (.callAddr nnn) s = .next ((s.addReport (.stackOverflow s.pc)).setPc
      (if s.params.callOverflowPc = .advance then s.pc + 2 else s.pc)) := by
  simp only [exec, execCallAddr, if_neg (show ¬ s.sp.val < 16 by omega)]
  cases s.params.callOverflowPc <;> rfl

theorem step_callAddr_of_room {s : State} {w : Word} {nnn : BitVec 12} (hrun : s.status = .running)
    (hfetch : s.fetch = some w) (hdec : decode s.params w = .instr (.callAddr nnn)) (hroom : s.sp.val < 16) :
    step s = .next ((s.beginStep.push (s.pc + 2)).setPc (addrOf nnn)) :=
  (step_instr hrun hfetch hdec).trans (exec_callAddr_of_room (s := s.beginStep) hroom nnn)

theorem step_ret_of_pos {s : State} (hrun : s.status = .running) (hfetch : s.fetch = some 0x00EE) (hpos : 0 < s.sp.val) :
    step s = .next s.beginStep.popPc :=
  (step_instr hrun hfetch (decode_encode (i := .ret) rfl)).trans (exec_ret_of_pos (s := s.beginStep) hpos)

/-! ### Skips (R123 to R126) -/

/-- A skip writes `pc` alone: 4 further where its condition holds, 2 where the opposite does. -/
theorem skipIf_outcome (s : State) {taken opposite : Prop} [Decidable taken] (hopp : opposite → ¬ taken) :
    ∃ t, (.next (s.skipIf taken) : Result) = .next t ∧ t = { s with pc := t.pc } ∧
      (taken → t.pc = s.pc + 4) ∧ (opposite → t.pc = s.pc + 2) := by
  refine ⟨_, rfl, rfl, fun h => ?_, fun h => ?_⟩
  · simp [h]
  · simp [hopp h]

/-! ### The default of `Bnnn` (R76, R127) -/

theorem decode_groupB_of_unrecognized {p : Config.Params} {w : Word} (hop : (opOf w).val = 0xB)
    (hmode : p.bnnnMode = .unrecognized) : decode p w = .unrecognized .groupB := by
  simp only [decode, hop, decodeGroupB, hmode]

/-! ### The statements -/

/-- Settles O24: the call leaves memory and configuration, so `0x00EE` is fetched at its target, and the return pops what it pushed. -/
theorem callThenReturnContinuesAfterCall : Obligations.CallThenReturnContinuesAfterCall := by
  unfold Obligations.CallThenReturnContinuesAfterCall
  rintro s w nnn hrun hfetch hdec hroom ⟨hmem, hhi, hlo⟩
  have hretFetch : ((s.beginStep.push (s.pc + 2)).setPc (addrOf nnn)).fetch = some 0x00EE :=
    State.fetch_eq_some.2 (by simp [hmem, hhi, hlo])
  have hdepth : (s.beginStep.push (s.pc + 2)).sp.val = s.sp.val + 1 := State.push_sp_val (s := s.beginStep) hroom _
  obtain ⟨hpc, hsp⟩ := State.popPc_of_push (s := s.beginStep) hroom rfl rfl
  exact ⟨_, _, step_callAddr_of_room hrun hfetch hdec hroom,
    step_ret_of_pos hrun hretFetch (by rw [State.setPc_sp]; omega), hpc, hsp, rfl⟩

/-- Settles O21, by whether the stack is empty. -/
theorem returnPopsOrReportsUnderflow : Obligations.ReturnPopsOrReportsUnderflow := by
  unfold Obligations.ReturnPopsOrReportsUnderflow
  intro s
  refine ⟨decode_encode (i := .ret) rfl, ?_⟩
  obtain hempty | hpos := Nat.eq_zero_or_pos s.sp.val
  · exact ⟨_, exec_ret_of_empty hempty, fun _ => rfl, fun h => absurd hempty h.ne'⟩
  · exact ⟨_, exec_ret_of_pos hpos, fun h => absurd h hpos.ne', fun _ => ⟨rfl, rfl, rfl⟩⟩

/-- Settles O22: a jump is one write of `pc`. -/
theorem jumpSetsProgramCounter : Obligations.JumpSetsProgramCounter := by
  unfold Obligations.JumpSetsProgramCounter
  intro nnn s
  exact ⟨decode_encode (i := .jpAddr nnn) rfl, _, rfl, addrOf_toNat nnn, rfl⟩

/-- Settles O23, by whether the stack has room. -/
theorem callPushesOrReportsOverflow : Obligations.CallPushesOrReportsOverflow := by
  unfold Obligations.CallPushesOrReportsOverflow
  intro nnn s
  refine ⟨decode_encode (i := .callAddr nnn) rfl, ?_⟩
  obtain hroom | hfull := Nat.lt_or_eq_of_le (Nat.le_of_lt_succ s.sp.isLt)
  · refine ⟨_, exec_callAddr_of_room hroom nnn, fun _ => ?_, fun h => absurd h hroom.ne⟩
    exact ⟨State.push_stack_top hroom _, State.push_sp_val hroom (s.pc + 2), addrOf_toNat nnn,
      fun _ hj => State.push_stack_other s _ hj, rfl⟩
  · refine ⟨_, exec_callAddr_of_full hfull nnn, fun h => absurd hfull h.ne, fun _ => ⟨rfl, fun h => ?_, fun h => ?_⟩⟩
    · exact if_pos h
    · exact if_neg (by simp [h])

/-- Settles O25, by the outcome of a skip (`skipIf_outcome`). -/
theorem immediateSkipsCompareRegister : Obligations.ImmediateSkipsCompareRegister := by
  unfold Obligations.ImmediateSkipsCompareRegister
  intro x kk s
  exact ⟨decode_encode (i := .seVxByte x kk) rfl, decode_encode (i := .sneVxByte x kk) rfl,
    skipIf_outcome s id, skipIf_outcome s not_not_intro⟩

/-- Settles O26, by the outcome of a skip (`skipIf_outcome`). -/
theorem registerSkipsCompareRegisters : Obligations.RegisterSkipsCompareRegisters := by
  unfold Obligations.RegisterSkipsCompareRegisters
  intro x y n s
  refine ⟨fun h => ?_, skipIf_outcome s id, skipIf_outcome s not_not_intro⟩
  have hwf : (s.params.decode59 = .ignoreN || n = 0 : Bool) = true := by simpa using h
  exact ⟨decode_encode (i := .seVxVy x y n) hwf, decode_encode (i := .sneVxVy x y n) hwf⟩

/-- Settles O27: a 12-bit address plus a byte is below 65536, so the sum is not reduced. -/
theorem jumpV0AddsRegisterZero : Obligations.JumpV0AddsRegisterZero := by
  unfold Obligations.JumpV0AddsRegisterZero
  intro nnn s
  refine ⟨fun hmode => decode_encode (i := .jpV0Addr nnn) (decide_eq_true hmode),
    decode_groupB_of_unrecognized (Laws.RowPattern.jpV0Addr nnn).1, _, rfl, ?_, rfl⟩
  have hsum : (addrOf nnn).toNat + (zext16 (s.reg 0)).toNat < 2 ^ 16 := by
    have := nnn.isLt; have := (s.reg 0).isLt
    rw [addrOf_toNat, zext16_toNat]; omega
  rw [State.setPc_pc, BitVec.toNat_add_of_lt hsum, addrOf_toNat, zext16_toNat]

end Sys2Proof.Machine
end

section
/-! Loads, arithmetic and logic (42_alu.md): the words that decode to them, and what they leave in the registers (R140 to R151). -/

namespace Sys2Proof.Machine

open Sys2Proof.Claims

/-! ### The words of group 8 -/

/-- A word of group 8, whose sub-operation `n` selects the instruction (R75). -/
theorem decode_group8 {p : Config.Params} {i : Instr} {x y n : Fin 16} (hword : encode i = wordXYN 0x8 x y n)
    (hwf : i.wellFormed p = true) :
    decode p (BitVec.ofNat 16 (0x8000 + n.val + x.val * 0x100 + y.val * 0x10)) = .instr i := by
  have hsum : 0x8000 + n.val + x.val * 0x100 + y.val * 0x10 = 0x8 * 0x1000 + x.val * 0x100 + y.val * 0x10 + n.val := by
    omega
  rw [hsum]
  exact (congrArg (decode p) hword.symm).trans (decode_encode hwf)

/-! ### Registers that are not named -/

theorem otherRegsKept_setReg {named : List Reg} {s t : State} {x : Reg} (h : OtherRegsKept named s t) (hx : x ∈ named)
    (v : Byte) : OtherRegsKept named s (t.setReg x v) := by
  intro r hr
  have hne : r ≠ x := by rintro rfl; exact hr hx
  rw [State.setReg_reg, if_neg hne, h r hr]

/-! ### One write of `V[x]` (R140 to R145) -/

theorem setReg_advance_reg (s : State) (x : Reg) (v : Byte) : (s.setReg x v).advance.reg x = v :=
  (State.setReg_reg s x x v).trans (if_pos rfl)

theorem setReg_advance_others (s : State) (x : Reg) (v : Byte) : OtherRegsKept [x] s (s.setReg x v).advance :=
  otherRegsKept_setReg (fun _ _ => rfl) (List.mem_singleton_self x) v

/-- An operation that is a Boolean function of each bit writes `V[x]` bit by bit, and no flag. -/
theorem bitwise_outcome {op : Byte → Byte → Byte} {f : Bool → Bool → Bool}
    (hop : ∀ u v b, (op u v).getLsbD b = f (u.getLsbD b) (v.getLsbD b)) (x y : Reg) (s : State) :
    ∃ t, (.next (s.setReg x (op (s.reg x) (s.reg y))).advance : Result) = .next t ∧ OtherRegsKept [x] s t ∧
      t.pc = s.pc + 2 ∧ ∀ b < 8, (t.reg x).getLsbD b = f ((s.reg x).getLsbD b) ((s.reg y).getLsbD b) :=
  ⟨_, rfl, setReg_advance_others s x _, rfl, fun b _ => by rw [setReg_advance_reg, hop]⟩

/-! ### Result and flag (R146 to R148, R150) -/

/-- Result and flag reach `V[x]` and `VF`, of which the later write holds where the two are one register. -/
theorem writeResultAndFlag_outcome (s : State) (x : Reg) (v f : Byte) :
    ∃ t, (.next (s.writeResultAndFlag x v f).advance : Result) = .next t ∧ OtherRegsKept [x, VF] s t ∧
      t.pc = s.pc + 2 ∧ (x ≠ VF ∨ s.params.arithFlagOrder = .resultLast → t.reg x = v) ∧
      (x ≠ VF ∨ s.params.arithFlagOrder = .flagLast → t.reg VF = f) := by
  refine ⟨_, rfl, fun r hr => ?_, ?_, State.writeResultAndFlag_result s x v f, State.writeResultAndFlag_flag s x v f⟩
  · obtain ⟨hx, hVF⟩ : r ≠ x ∧ r ≠ VF := by simpa using hr
    exact State.writeResultAndFlag_other s x r v f hx hVF
  · rw [State.advance_pc, State.writeResultAndFlag_pc]

/-- The wrapped difference is the difference modulo 256 of the integers. -/
theorem byte_sub_toNat (u v : Byte) : ((u - v).toNat : Int) = ((u.toNat : Int) - v.toNat) % 256 := by
  have := u.isLt; have := v.isLt
  rw [BitVec.toNat_sub]; omega

/-- A subtraction `u - v` stores the difference modulo 256 and the not-borrow flag, whichever operand is `V[x]` (R148, R150). -/
theorem difference_outcome (s : State) (x : Reg) (u v : Byte) :
    ∃ t, (.next (s.writeResultAndFlag x (u - v) (notBorrowFlag u v)).advance : Result) = .next t ∧
      OtherRegsKept [x, VF] s t ∧ t.pc = s.pc + 2 ∧
      (x ≠ VF ∨ s.params.arithFlagOrder = .resultLast → ((t.reg x).toNat : Int) = ((u.toNat : Int) - v.toNat) % 256) ∧
      (x ≠ VF ∨ s.params.arithFlagOrder = .flagLast →
        (t.reg VF).toNat = if (u.toNat : Int) ≥ (v.toNat : Int) then 1 else 0) := by
  obtain ⟨t, ht, hothers, hpc, hresult, hflag⟩ := writeResultAndFlag_outcome s x (u - v) (notBorrowFlag u v)
  refine ⟨t, ht, hothers, hpc, fun h => ?_, fun h => ?_⟩
  · rw [hresult h, byte_sub_toNat]
  · simp only [hflag h, notBorrowFlag_toNat, ge_iff_le, Int.ofNat_le]

/-! ### Shifts (R149, R151) -/

/-- A shift reads `V[x]` after `VF` is written: where they are one register, it is the flag that is shifted. -/
theorem flagThenShift_outcome (s : State) (x : Reg) (f : Byte) (shift : Byte → Byte) :
    ∃ t, (.next ((s.setReg VF f).setReg x (shift ((s.setReg VF f).reg x))).advance : Result) = .next t ∧
      OtherRegsKept [x, VF] s t ∧ t.pc = s.pc + 2 ∧ (x ≠ VF → t.reg VF = f ∧ t.reg x = shift (s.reg x)) ∧
      (x = VF → t.reg VF = shift f) := by
  refine ⟨_, rfl, ?_, rfl, fun hx => ⟨?_, ?_⟩, fun hx => ?_⟩
  · exact otherRegsKept_setReg (otherRegsKept_setReg (fun _ _ => rfl) (by simp) f) (by simp) _
  · simp [hx.symm]
  · simp [hx]
  · simp [hx]

theorem byte_shiftRight_one_toNat (v : Byte) : (v >>> 1).toNat = v.toNat / 2 := by
  rw [BitVec.toNat_ushiftRight, Nat.shiftRight_eq_div_pow]

theorem byte_shiftLeft_one_toNat (v : Byte) : (v <<< 1).toNat = v.toNat * 2 % 256 := by
  rw [BitVec.toNat_shiftLeft, Nat.shiftLeft_eq]

/-- `ShlFlag` is 0, 1 or 8, so shifting it left loses no bit. -/
theorem shlFlag_toNat_lt (m : Config.ShlFlag) (v : Byte) : (shlFlag m v).toNat < 128 := by
  have := v.isLt
  rw [shlFlag_toNat]
  cases m <;> dsimp only <;> omega

/-! ### The statements -/

/-- Settles O28: a load is one write of `V[x]`. -/
theorem loadsSetTheirRegister : Obligations.LoadsSetTheirRegister := by
  unfold Obligations.LoadsSetTheirRegister
  intro x y kk s
  exact ⟨decode_encode (i := .ldVxByte x kk) rfl, decode_group8 (i := .ldVxVy x y) (n := 0x0) rfl rfl,
    ⟨_, rfl, setReg_advance_reg s x kk, setReg_advance_others s x kk, rfl⟩,
    ⟨_, rfl, setReg_advance_reg s x (s.reg y), setReg_advance_others s x (s.reg y), rfl⟩⟩

/-- Settles O29: the addition of bytes is that of numbers modulo 256, and `V[x]` is the one register written. -/
theorem addImmediateWrapsWithoutFlag : Obligations.AddImmediateWrapsWithoutFlag := by
  unfold Obligations.AddImmediateWrapsWithoutFlag
  intro x kk s
  refine ⟨decode_encode (i := .addVxByte x kk) rfl, _, rfl, ?_, setReg_advance_others s x (s.reg x + kk), rfl⟩
  rw [setReg_advance_reg, BitVec.toNat_add]

/-- Settles O30, by the outcome of a bitwise operation (`bitwise_outcome`). -/
theorem logicIsBitwiseWithoutFlag : Obligations.LogicIsBitwiseWithoutFlag := by
  unfold Obligations.LogicIsBitwiseWithoutFlag
  intro x y s
  exact ⟨decode_group8 (i := .orVxVy x y) (n := 0x1) rfl rfl, decode_group8 (i := .andVxVy x y) (n := 0x2) rfl rfl,
    decode_group8 (i := .xorVxVy x y) (n := 0x3) rfl rfl,
    bitwise_outcome (op := (· ||| ·)) (fun _ _ _ => BitVec.getLsbD_or) x y s,
    bitwise_outcome (op := (· &&& ·)) (fun _ _ _ => BitVec.getLsbD_and) x y s,
    bitwise_outcome (op := (· ^^^ ·)) (fun _ _ _ => BitVec.getLsbD_xor) x y s⟩

/-- Settles O31, by the outcome of the two writes (`writeResultAndFlag_outcome`). -/
theorem addSetsSumAndCarry : Obligations.AddSetsSumAndCarry := by
  unfold Obligations.AddSetsSumAndCarry
  intro x y s
  obtain ⟨t, ht, hothers, hpc, hresult, hflag⟩ :=
    writeResultAndFlag_outcome s x (s.reg x + s.reg y) (carryFlag (s.reg x) (s.reg y))
  refine ⟨decode_group8 (i := .addVxVy x y) (n := 0x4) rfl rfl, t, ht, hothers, hpc, fun h => ?_, fun h => ?_⟩
  · rw [hresult h, BitVec.toNat_add]
  · rw [hflag h, carryFlag_toNat]

/-- Settles O32, by the outcome of a subtraction (`difference_outcome`), its operands in either order. -/
theorem subtractsSetDifferenceAndNotBorrow : Obligations.SubtractsSetDifferenceAndNotBorrow := by
  unfold Obligations.SubtractsSetDifferenceAndNotBorrow
  intro x y s
  exact ⟨decode_group8 (i := .subVxVy x y) (n := 0x5) rfl rfl, decode_group8 (i := .subnVxVy x y) (n := 0x7) rfl rfl,
    difference_outcome s x (s.reg x) (s.reg y), difference_outcome s x (s.reg y) (s.reg x)⟩

/-- Settles O33, by the outcome of a shift (`flagThenShift_outcome`): the flag is below 2, and shifted it is 0. -/
theorem shiftRightWritesFlagThenShifts : Obligations.ShiftRightWritesFlagThenShifts := by
  unfold Obligations.ShiftRightWritesFlagThenShifts
  intro x y s
  obtain ⟨t, ht, hothers, hpc, hother, hself⟩ := flagThenShift_outcome s x (shrFlag (s.reg x)) (· >>> 1)
  refine ⟨decode_group8 (i := .shrVx x y) (n := 0x6) rfl rfl, t, ht, hothers, hpc, fun hx => ?_, fun hx => ?_⟩
  · obtain ⟨hVF, hV⟩ := hother hx
    exact ⟨by rw [hVF, shrFlag_toNat], by rw [hV, byte_shiftRight_one_toNat]⟩
  · rw [hself hx, byte_shiftRight_one_toNat, shrFlag_toNat]
    omega

/-- Settles O34, by the outcome of a shift (`flagThenShift_outcome`): the flag shifted stays below 256. -/
theorem shiftLeftWritesFlagThenShifts : Obligations.ShiftLeftWritesFlagThenShifts := by
  unfold Obligations.ShiftLeftWritesFlagThenShifts
  intro x y s
  have hflag := shlFlag_toNat s.params.shlFlag (s.reg x)
  have hlt := shlFlag_toNat_lt s.params.shlFlag (s.reg x)
  obtain ⟨t, ht, hothers, hpc, hother, hself⟩ :=
    flagThenShift_outcome s x (shlFlag s.params.shlFlag (s.reg x)) (· <<< 1)
  refine ⟨decode_group8 (i := .shlVx x y) (n := 0xE) rfl rfl, t, ht, hothers, hpc, fun hx => ?_, fun hx => ?_⟩
  · obtain ⟨hVF, hV⟩ := hother hx
    exact ⟨(congrArg BitVec.toNat hVF).trans hflag, by rw [hV, byte_shiftLeft_one_toNat]⟩
  · have hshift : (t.reg VF).toNat = (shlFlag s.params.shlFlag (s.reg x)).toNat * 2 := by
      rw [hself hx, byte_shiftLeft_one_toNat]; omega
    exact hshift.trans (congrArg (· * 2) hflag)

end Sys2Proof.Machine
end

section
/-! Index register and memory (43_index_memory.md): the words that decode to the instructions, what they leave in `I`, the bytes they store and the registers they load (R170 to R175). -/

namespace Sys2Proof.Machine

open Sys2Proof.Claims

/-! ### The words of group F -/

/-- A word of group F, whose sub-operation `kk` selects the instruction (R75). -/
theorem decode_groupF {p : Config.Params} {i : Instr} {x : Reg} {kk : Byte} (hword : encode i = wordXKK 0xF x kk)
    (hwf : i.wellFormed p = true) : decode p (BitVec.ofNat 16 (0xF000 + kk.toNat + x.val * 0x100)) = .instr i := by
  rw [Nat.add_right_comm]
  exact (congrArg (decode p) hword.symm).trans (decode_encode hwf)

/-! ### Glyph addresses and digits (R172, R173) -/

/-- Five times a byte is below 65536, so the glyph address is not reduced. -/
theorem glyphAddr_toNat (v : Byte) : (glyphAddr v).toNat = v.toNat * 5 := by
  have hlt : (zext16 v).toNat * (5 : Addr).toNat < 2 ^ 16 := by
    have := v.isLt
    rw [zext16_toNat, show (5 : Addr).toNat = 5 from rfl]; omega
  exact (BitVec.toNat_mul_of_lt hlt).trans (congrArg (· * 5) (zext16_toNat v))

/-- The digits of a byte are below 256, so each is stored whole. -/
theorem bcdDigits_toNat (v : Byte) : (bcdDigits v).map BitVec.toNat = [v.toNat / 100, v.toNat / 10 % 10, v.toNat % 10] := by
  have := v.isLt
  simp only [bcdDigits, List.map_cons, List.map_nil, BitVec.toNat_ofNat, List.cons.injEq, and_true]
  omega

/-! ### Bytes stored and bytes left (R54) -/

theorem storeBytes_readByte_of_lt (s : State) (base : Nat) {bs : List Byte} {j : Nat} (hj : j < bs.length) :
    (s.storeBytes base bs).readByte (base + j) = bs[j] := by
  rw [State.storeBytes_readByte, if_pos (by omega), Nat.add_sub_cancel_left, List.getD_eq_getElem _ _ hj]

theorem storeBytes_readByte_of_outside (s : State) {base b : Nat} {bs : List Byte} (hb : b < base ∨ base + bs.length ≤ b) :
    (s.storeBytes base bs).readByte b = s.readByte b := by
  rw [State.storeBytes_readByte, if_neg (by omega)]

/-- Digit `j` is the number read at `base + j` after the digits are stored at `base` (R173). -/
theorem storeBytes_bcdDigits_readByte_toNat (s : State) (base : Nat) (v : Byte) {j : Nat} (hj : j < 3) :
    ((s.storeBytes base (bcdDigits v)).readByte (base + j)).toNat = [v.toNat / 100, v.toNat / 10 % 10, v.toNat % 10][j] := by
  have hlen : j < (bcdDigits v).length := hj
  simp only [storeBytes_readByte_of_lt s base hlen, ← bcdDigits_toNat, List.getElem_map]

/-! ### The accesses in range (R173, R175) -/

theorem exec_ldBVx_of_inRange {s : State} {x : Reg} (h : InRange s s.I.toNat 3) :
    exec (.ldBVx x) s = .next (s.storeBytes s.I.toNat (bcdDigits (s.reg x))).advance :=
  State.ifInRange_of_inRange h _

theorem exec_ldVxMem_of_inRange {s : State} {x : Reg} (h : InRange s s.I.toNat (x.val + 1)) :
    exec (.ldVxMem x) s = .next (s.loadRegs s.I.toNat (x.val + 1)).advance :=
  State.ifInRange_of_inRange h _

@[simp] theorem State.loadRegs_readByte (s : State) (base n a : Nat) : (s.loadRegs base n).readByte a = s.readByte a := by
  rw [State.readByte, State.loadRegs_mem, State.readByte]

/-- After a register load at `base`, `V[j]` is the byte at `base + j` (R175). -/
theorem loadRegs_reg_of_le (s : State) (base : Nat) {x j : Reg} (hj : j ≤ x) :
    (s.loadRegs base (x.val + 1)).reg j = s.readByte (base + j.val) := by
  rw [State.loadRegs_reg s base _ x.isLt, if_pos (Nat.lt_succ_of_le hj)]

/-- A register load leaves the registers above `x` (R175). -/
theorem loadRegs_reg_of_gt (s : State) (base : Nat) {x j : Reg} (hj : x < j) :
    (s.loadRegs base (x.val + 1)).reg j = s.reg j := by
  rw [State.loadRegs_reg s base _ x.isLt, if_neg (Nat.not_lt.2 hj)]

/-! ### The statements -/

/-- Settles O37: the three digits are the bytes stored at `I`. -/
theorem bcdStoresThreeDigits : Obligations.BcdStoresThreeDigits := by
  unfold Obligations.BcdStoresThreeDigits
  intro x s
  refine ⟨decode_groupF (i := .ldBVx x) (kk := 0x33) rfl rfl, fun hrange => ?_, fun a h => State.ifInRange_of_lowest h _⟩
  have hdigit {j : Nat} (hj : j < 3) := storeBytes_bcdDigits_readByte_toNat s s.I.toNat (s.reg x) hj
  exact ⟨_, exec_ldBVx_of_inRange hrange, hdigit (j := 0) (by decide), hdigit (j := 1) (by decide),
    hdigit (j := 2) (by decide), fun _ ha => storeBytes_readByte_of_outside s ha, rfl, rfl, rfl⟩

/-- Settles O38: the dump stores `x + 1` bytes at `I`, of which byte `j` is `V[j]`. -/
theorem registerDumpStoresThroughX : Obligations.RegisterDumpStoresThroughX := by
  unfold Obligations.RegisterDumpStoresThroughX
  intro x s
  refine ⟨decode_groupF (i := .ldMemVx x) (kk := 0x55) rfl rfl, fun hrange => ?_, fun a h => State.ifInRange_of_lowest h _⟩
  refine ⟨_, exec_ldMemVx_of_inRange hrange, fun j hj => storeBytes_regsThrough_readByte s _ hj, fun a ha => ?_, rfl, rfl, rfl⟩
  exact storeBytes_readByte_of_outside s (by rw [State.regsThrough_length]; omega)

/-- Settles O39: the load writes `V[0]` to `V[x]` and no other element but `pc`. -/
theorem registerLoadLoadsThroughX : Obligations.RegisterLoadLoadsThroughX := by
  unfold Obligations.RegisterLoadLoadsThroughX
  intro x s
  refine ⟨decode_groupF (i := .ldVxMem x) (kk := 0x65) rfl rfl, fun hrange => ?_, fun a h => State.ifInRange_of_lowest h _⟩
  refine ⟨_, exec_ldVxMem_of_inRange hrange, fun j hj => loadRegs_reg_of_le s _ hj, fun j hj => loadRegs_reg_of_gt s _ hj,
    fun a => State.loadRegs_readByte s _ _ a, State.loadRegs_I s _ _, ?_⟩
  rw [State.advance_pc, State.loadRegs_pc]

/-- Settles O40: the load reads at `I + j` the byte that the dump stored there, which is `V[j]`. -/
theorem dumpThenLoadRestoresRegisters : Obligations.DumpThenLoadRestoresRegisters := by
  unfold Obligations.DumpThenLoadRestoresRegisters
  rintro x s t u hdump ⟨hIt, hparams, hbytes⟩
  obtain ⟨hdumped, rfl⟩ := State.ifInRange_eq_next.1 hdump
  have hI : u.I = s.I := hIt
  have hrange : InRange u u.I.toNat (x.val + 1) := by
    intro a hlo hhi
    rw [hI] at hlo hhi
    exact (hdumped a hlo hhi).trans_eq (State.memSize_congr hparams).symm
  refine ⟨_, exec_ldVxMem_of_inRange hrange, fun j hj => ?_⟩
  calc (u.loadRegs u.I.toNat (x.val + 1)).reg j
      _ = u.readByte (s.I.toNat + j.val) := by rw [loadRegs_reg_of_le u _ hj, hI]
      _ = (s.storeBytes s.I.toNat (s.regsThrough x)).readByte (s.I.toNat + j.val) := hbytes _
      _ = s.reg j := storeBytes_regsThrough_readByte s _ hj

/-- Settles O36: each is one write of `I`, and only the addition is reduced modulo 65536. -/
theorem indexInstructionsSetIndex : Obligations.IndexInstructionsSetIndex := by
  unfold Obligations.IndexInstructionsSetIndex
  intro nnn x s
  refine ⟨decode_encode (i := .ldIAddr nnn) rfl, decode_groupF (i := .addIVx x) (kk := 0x1E) rfl rfl,
    decode_groupF (i := .ldFVx x) (kk := 0x29) rfl rfl, ⟨_, rfl, addrOf_toNat nnn, rfl, rfl⟩,
    ⟨_, rfl, ?_, rfl, rfl⟩, ⟨_, rfl, glyphAddr_toNat (s.reg x), rfl, rfl⟩⟩
  rw [State.advance_I, State.setI_I, BitVec.toNat_add, zext16_toNat]

end Sys2Proof.Machine
end

section
/-! Display (44_display.md): the cells that the clear and the draw leave, and the collision flag (R190 to R194). -/

namespace Sys2Proof.Machine

open Sys2Proof.Claims

/-! ### The drawing of one `DRW` (R191, R193) -/

section
variable {x y n : Fin 16} {s t u : State} {px : Fin 64} {py : Fin 32}

/-- The sprite bytes at `I` cover the cells that the rule says they cover. -/
theorem rowsCover_readBytes_iff :
    rowsCover (s.reg x) (s.reg y) 0 (s.readBytes (s.effAddr 0) n.val) px py = true ↔ SpriteCovers x y n s px py := by
  simp only [rowsCover_iff, spriteBit_eq, State.readBytes_getElem, State.readBytes_length, State.effAddr, Nat.zero_add,
    Nat.add_zero, pixelColumn, pixelRow, Fin.ext_iff, Fin.val_ofNat]
  constructor
  · rintro ⟨r, hr, c, hc, hcell⟩
    exact ⟨r, c, hr, hc, hcell⟩
  · rintro ⟨r, c, hr, hc, hcell⟩
    exact ⟨r, hr, c, hc, hcell⟩

/-- The picture and the collision that `DRW Vx, Vy, n` ends with. -/
def drawing (x y n : Fin 16) (s : State) : Drawing :=
  drawRows (s.reg x) (s.reg y) 0 (s.readBytes (s.effAddr 0) n.val) { fb := s.FB, hit := false }

/-- A sprite is at most 15 rows high, so no two of its rows share a row of the picture. -/
theorem spriteRows_length_le (s : State) (a : Nat) (n : Fin 16) : (s.readBytes a n.val).length ≤ 32 := by
  rw [State.readBytes_length]; omega

theorem drawing_cell_of_covers (h : SpriteCovers x y n s px py) :
    Framebuffer.cell (drawing x y n s).fb px py = !Framebuffer.cell s.FB px py := by
  rw [drawing, drawRows_cell _ _ _ _ _ _ _ (spriteRows_length_le ..), rowsCover_readBytes_iff.2 h, Bool.xor_true]

theorem drawing_cell_of_not_covers (h : ¬ SpriteCovers x y n s px py) :
    Framebuffer.cell (drawing x y n s).fb px py = Framebuffer.cell s.FB px py := by
  rw [← rowsCover_readBytes_iff, Bool.not_eq_true] at h
  rw [drawing, drawRows_cell _ _ _ _ _ _ _ (spriteRows_length_le ..), h, Bool.xor_false]

/-- A draw collides exactly where a covered cell was lit before it (R192). -/
theorem drawing_hit_iff :
    (drawing x y n s).hit = true ↔ ∃ px py, SpriteCovers x y n s px py ∧ Framebuffer.cell s.FB px py = true := by
  rw [drawing, drawRows_hit _ _ _ _ _ (spriteRows_length_le ..)]
  simp only [rowsCover_readBytes_iff, Bool.false_eq_true, false_or]

/-! ### `DRW` in terms of its drawing (R191, R192) -/

/-- What a draw in range leaves: the drawing's picture, the flag of its collision in `VF`, and the advance. -/
def State.afterDraw (x y n : Fin 16) (s : State) : State :=
  ((s.setFB (drawing x y n s).fb).setReg VF (flag (drawing x y n s).hit)).advance

@[simp] theorem State.afterDraw_FB : (s.afterDraw x y n).FB = (drawing x y n s).fb := rfl

@[simp] theorem State.afterDraw_VF : (s.afterDraw x y n).reg VF = flag (drawing x y n s).hit := by
  simp [State.afterDraw]

theorem exec_drw_of_inRange (h : InRange s s.I.toNat n.val) : exec (.drw x y n) s = .next (s.afterDraw x y n) :=
  State.ifInRange_of_inRange h _

theorem exec_drw_eq_next : exec (.drw x y n) s = .next t ↔ InRange s s.I.toNat n.val ∧ s.afterDraw x y n = t :=
  State.ifInRange_eq_next

theorem flag_eq_one_iff {b : Bool} : flag b = 1 ↔ b = true := by cases b <;> decide

/-- After a draw in range `VF` is 1 exactly when a covered cell was lit before it (R192). -/
theorem State.afterDraw_VF_eq_one_iff : (s.afterDraw x y n).reg VF = 1 ↔
    ∃ px py, SpriteCovers x y n s px py ∧ Framebuffer.cell s.FB px py = true := by
  rw [State.afterDraw_VF, flag_eq_one_iff, drawing_hit_iff]

/-! ### What coverage and the range depend on -/

/-- The same sprite at the same place covers the same cells. -/
theorem spriteCovers_congr (hI : u.I = s.I) (hx : u.reg x = s.reg x) (hy : u.reg y = s.reg y)
    (hbytes : ∀ a, u.readByte a = s.readByte a) : SpriteCovers x y n u px py ↔ SpriteCovers x y n s px py := by
  simp only [SpriteCovers, hI, hx, hy, hbytes]

theorem inRange_congr (hparams : u.params = s.params) {base len : Nat} : InRange u base len ↔ InRange s base len := by
  simp only [InRange, State.memSize_congr hparams]

end

/-! ### The statements -/

/-- Settles O43, by the cells of the drawing; the draw writes `FB`, `VF` and `pc` alone. -/
theorem drawInvertsCoveredCells : Obligations.DrawInvertsCoveredCells := by
  unfold Obligations.DrawInvertsCoveredCells
  intro x y n s
  refine ⟨decode_encode (i := .drw x y n) rfl, fun hrange => ?_, fun a h => State.ifInRange_of_lowest h _⟩
  exact ⟨_, exec_drw_of_inRange hrange, fun _ _ => drawing_cell_of_covers, fun _ _ => drawing_cell_of_not_covers,
    otherRegsKept_setReg (fun _ _ => rfl) (List.mem_singleton_self VF) _, rfl, fun _ => rfl, rfl⟩

/-- Settles O44: `VF` is the flag of the drawing's collision. -/
theorem drawFlagIsCollision : Obligations.DrawFlagIsCollision := by
  unfold Obligations.DrawFlagIsCollision
  intro x y n s t h
  obtain ⟨-, rfl⟩ := exec_drw_eq_next.1 h
  refine ⟨State.afterDraw_VF_eq_one_iff.2, fun hnone => ?_⟩
  have hmiss : (drawing x y n s).hit = false := by rwa [← drawing_hit_iff, Bool.not_eq_true] at hnone
  rw [State.afterDraw_VF, hmiss]
  rfl

/-- Settles O45: both draws cover the same cells, each inverted twice, and lit before the second draw where unlit before the first. -/
theorem secondDrawRestoresPicture : Obligations.SecondDrawRestoresPicture := by
  unfold Obligations.SecondDrawRestoresPicture
  rintro x y n s t u h ⟨hFB, hI, hx, hy, hparams, hbytes⟩
  obtain ⟨hrange, rfl⟩ := exec_drw_eq_next.1 h
  have hcovers (px py) : SpriteCovers x y n u px py ↔ SpriteCovers x y n s px py := spriteCovers_congr hI hx hy hbytes
  have hinverted {px py} (hc : SpriteCovers x y n s px py) :
      Framebuffer.cell u.FB px py = !Framebuffer.cell s.FB px py := by
    rw [hFB, State.afterDraw_FB, drawing_cell_of_covers hc]
  refine ⟨_, exec_drw_of_inRange ((inRange_congr hparams).2 (hI ▸ hrange)), fun px py => ?_, ?_⟩
  · rw [State.afterDraw_FB]
    by_cases hc : SpriteCovers x y n s px py
    · rw [drawing_cell_of_covers ((hcovers px py).2 hc), hinverted hc, Bool.not_not]
    · rw [drawing_cell_of_not_covers (mt (hcovers px py).1 hc), hFB, State.afterDraw_FB, drawing_cell_of_not_covers hc]
  · rw [State.afterDraw_VF_eq_one_iff]
    refine exists₂_congr fun px py => ?_
    rw [hcovers]
    exact and_congr_right fun hc => by rw [hinverted hc, Bool.not_eq_true']

/-- Settles O42: every cell of the blank picture is unlit, and the clear writes `FB` and `pc` alone. -/
theorem clearScreenUnsetsEveryCell : Obligations.ClearScreenUnsetsEveryCell := by
  unfold Obligations.ClearScreenUnsetsEveryCell
  intro s
  exact ⟨decode_encode (i := .cls) rfl, _, rfl, Framebuffer.cell_blank, rfl, rfl⟩

end Sys2Proof.Machine
end

section
/-! Keypad and timers (45_keypad_timers.md): the key skips, the wait for a key, and the copies between `V[x]` and the timers (R210 to R216). -/

namespace Sys2Proof.Machine

open Sys2Proof.Claims

/-! ### The words of group E -/

/-- A word of group E, whose sub-operation `kk` selects the instruction (R75). -/
theorem decode_groupE {p : Config.Params} {i : Instr} {x : Reg} {kk : Byte} (hword : encode i = wordXKK 0xE x kk)
    (hwf : i.wellFormed p = true) : decode p (BitVec.ofNat 16 (0xE000 + kk.toNat + x.val * 0x100)) = .instr i := by
  rw [Nat.add_right_comm]
  exact (congrArg (decode p) hword.symm).trans (decode_encode hwf)

/-! ### The key skips, on the key that `V[x]` names (R210, R211) -/

/-- A key skip writes `pc` alone: 4 further where the key named is in the state tested for, 2 where it is in the other. -/
theorem skipOnKey_outcome {s : State} {x : Reg} {k : Fin 16} (hk : (s.reg x).toNat = k.val) (pressed : Bool) :
    ∃ t, s.skipOnKey x pressed = .next t ∧ t = { s with pc := t.pc } ∧
      (s.key[k] = pressed → t.pc = s.pc + 4) ∧ (s.key[k] = !pressed → t.pc = s.pc + 2) := by
  rw [State.skipOnKey_eq_next.2 ⟨k, hk, rfl⟩]
  exact skipIf_outcome s fun hother => by simp [hother]

/-! ### The wait for a key, by the keys pressed (R212) -/

theorem exec_ldVxK_of_lowest {s : State} {k : Fin 16} (hpressed : s.key[k] = true)
    (hlower : ∀ j : Fin 16, j < k → s.key[j] = false) (x : Reg) :
    exec (.ldVxK x) s = .next (s.setReg x (BitVec.ofNat 8 k.val)).advance := by
  simp only [exec, execLdVxK, State.lowestPressed_eq_some.2 ⟨hpressed, hlower⟩]

theorem exec_ldVxK_of_none {s : State} (hnone : ∀ k : Fin 16, s.key[k] = false) (x : Reg) :
    exec (.ldVxK x) s = .next s := by
  simp only [exec, execLdVxK, State.lowestPressed_eq_none.2 hnone]

/-- The index of a key is stored whole in a register. -/
theorem keyByte_toNat (k : Fin 16) : (BitVec.ofNat 8 k.val).toNat = k.val :=
  (BitVec.toNat_ofNat _ _).trans (Nat.mod_eq_of_lt (by omega))

/-! ### The statements -/

/-- Settles O46: `SKP` and `SKNP` are one skip on the named key (`skipOnKey_outcome`), testing for opposite states, with the fault of `State.skipOnKey_eq_fault`. -/
theorem keySkipsTestNamedKey : Obligations.KeySkipsTestNamedKey := by
  unfold Obligations.KeySkipsTestNamedKey
  intro x s
  refine ⟨decode_groupE (i := .skpVx x) (kk := 0x9E) rfl rfl, decode_groupE (i := .sknpVx x) (kk := 0xA1) rfl rfl,
    fun k hk => ?_, fun hout => ?_⟩
  · exact ⟨skipOnKey_outcome hk true, skipOnKey_outcome hk false⟩
  · exact ⟨State.skipOnKey_eq_fault.2 ⟨hout, rfl⟩, State.skipOnKey_eq_fault.2 ⟨hout, rfl⟩⟩

/-- Settles O47, by whether a key is pressed: the lowest one's index is the one register write, and with none the state is the same. -/
theorem waitForKeyTakesLowestPressed : Obligations.WaitForKeyTakesLowestPressed := by
  unfold Obligations.WaitForKeyTakesLowestPressed
  intro x s
  refine ⟨decode_groupF (i := .ldVxK x) (kk := 0x0A) rfl rfl, fun k hpressed hlower => ?_,
    fun hnone => exec_ldVxK_of_none hnone x⟩
  refine ⟨_, exec_ldVxK_of_lowest hpressed hlower x, ?_, setReg_advance_others s x _, rfl⟩
  rw [setReg_advance_reg, keyByte_toNat]

/-- Settles O48: each copy is one write, of `V[x]`, `DT` or `ST`, and the advance. -/
theorem timerCopiesAreDirect : Obligations.TimerCopiesAreDirect := by
  unfold Obligations.TimerCopiesAreDirect
  intro x s
  exact ⟨decode_groupF (i := .ldVxDT x) (kk := 0x07) rfl rfl, decode_groupF (i := .ldDTVx x) (kk := 0x15) rfl rfl,
    decode_groupF (i := .ldSTVx x) (kk := 0x18) rfl rfl,
    ⟨_, rfl, setReg_advance_reg s x s.DT, setReg_advance_others s x s.DT, rfl, rfl, rfl, rfl⟩,
    ⟨_, rfl, rfl, rfl, rfl, rfl, rfl⟩, ⟨_, rfl, rfl, rfl, rfl, rfl, rfl⟩⟩

end Sys2Proof.Machine
end

section
/-! Exceptions and the host's transactions (60_exceptions.md): the faults of an instruction, the ticks, the key writes and the host's reads (R231, R250 to R256). -/

namespace Sys2Proof.Machine

open Sys2Proof.Claims

/-! ### The faults of an instruction (R231) -/

theorem not_lowestOutside_zero (s : State) (base a : Nat) : ¬ LowestOutside s base 0 a := by
  rintro ⟨hle, hlt, -⟩
  exact absurd hlt (Nat.not_lt.2 hle)

/-- An instruction whose access at `I` leaves memory faults with the lowest address outside; only those that access memory can. -/
theorem exec_of_lowestOutside {i : Instr} {s : State} {a : Nat} (h : LowestOutside s s.I.toNat (accessLength i) a) :
    exec i s = .fault (.fatal (.memOutOfBounds a)) := by
  cases i
  case drw x y n | ldBVx x | ldMemVx x | ldVxMem x => exact State.ifInRange_of_lowest h _
  all_goals exact absurd h (not_lowestOutside_zero s _ a)

/-- Settles O11: an instruction has no other fault (`exec_fault_cases`), and each of the named ones is one (`exec_of_lowestOutside`, `State.skipOnKey_eq_fault`). -/
theorem instructionFaultsAreThoseNamed : Obligations.InstructionFaultsAreThoseNamed := by
  unfold Obligations.InstructionFaultsAreThoseNamed
  intro i s f
  refine ⟨exec_fault_cases, ?_⟩
  rintro (⟨a, rfl, hlow⟩ | ⟨x, rfl | rfl, hkey⟩)
  · exact exec_of_lowestOutside hlow
  · exact State.skipOnKey_eq_fault.2 hkey
  · exact State.skipOnKey_eq_fault.2 hkey

/-! ### Ticks (R250, R252) -/

theorem State.tick_tone_iff (s : State) : s.tick.tone = true ↔ s.ST ≠ 0 := by
  rw [State.tick_tone, decide_eq_true_eq]

theorem ticks_DT_toNat (n : Nat) (s : State) : (ticks n s).DT.toNat = s.DT.toNat - n := by
  induction n with
  | zero => rfl
  | succ n ih => rw [ticks, State.tick_DT, countDown_toNat, ih, Nat.sub_sub]

theorem ticks_ST_toNat (n : Nat) (s : State) : (ticks n s).ST.toNat = s.ST.toNat - n := by
  induction n with
  | zero => rfl
  | succ n ih => rw [ticks, State.tick_ST, countDown_toNat, ih, Nat.sub_sub]

/-- The last of `n + 1` ticks sees the `ST` that `n` ticks left. -/
theorem ticks_succ_tone_iff (n : Nat) (s : State) : (ticks (n + 1) s).tone = true ↔ n + 1 ≤ s.ST.toNat := by
  calc (ticks (n + 1) s).tone = true
    _ ↔ (ticks n s).ST ≠ 0 := State.tick_tone_iff (ticks n s)
    _ ↔ (ticks n s).ST.toNat ≠ 0 := BitVec.toNat_ne
    _ ↔ n + 1 ≤ s.ST.toNat := by rw [ticks_ST_toNat]; omega

/-- Settles O50, from the timers after `n` ticks, each by induction on `n`. -/
theorem manyTicksFloorAtZero : Obligations.ManyTicksFloorAtZero := by
  unfold Obligations.ManyTicksFloorAtZero
  intro n s
  refine ⟨ticks_DT_toNat n s, ticks_ST_toNat n s, fun hn => ?_⟩
  obtain ⟨m, rfl⟩ := Nat.exists_eq_add_of_le' hn
  exact ticks_succ_tone_iff m s

theorem tick_frame (s : State) : SameBut (fun e => e = .tone ∨ e = .DT ∨ e = .ST) s s.tick := by
  intro e he
  cases e
  case tone => exact absurd (.inl rfl) he
  case DT => exact absurd (.inr (.inl rfl)) he
  case ST => exact absurd (.inr (.inr rfl)) he
  all_goals rfl

/-! ### Transactions of a running and of a halted machine (R234) -/

theorem transact_tick_of_running {s : State} (hrun : s.status = .running) (free : State) :
    transact free .tick s = some (s.tick, .nothing) := by
  simp only [transact, hrun]

theorem transact_tick_of_halted {s : State} {r : HaltReason} (hhalt : s.status = .halted r) (free : State) :
    transact free .tick s = none := by
  simp only [transact, hhalt]

theorem transact_setKeys_of_running {s : State} (hrun : s.status = .running) (free : State) (k : BitVec 16) :
    transact free (.setKeys k) s = some (s.setKeys k, .nothing) := by
  simp only [transact, hrun]

@[simp] theorem transact_readFramebuffer (free s : State) :
    transact free .readFramebuffer s = some (s, .framebuffer s.FB) := by
  simp only [transact]

@[simp] theorem transact_readTone (free s : State) : transact free .readTone s = some (s, .tone s.tone) := by
  simp only [transact]

@[simp] theorem transact_readKeys (free s : State) : transact free .readKeys s = some (s, .keys s.key) := by
  simp only [transact]

/-- Settles O49: `Tick` is `State.tick`, whose timers are `countDown_toNat` and whose frame is `tick_frame`. -/
theorem tickCountsDownAndSetsTone : Obligations.TickCountsDownAndSetsTone := by
  unfold Obligations.TickCountsDownAndSetsTone
  constructor
  · intro free s hrun
    exact ⟨s.tick, transact_tick_of_running hrun free, s.tick_tone_iff, countDown_toNat s.DT, countDown_toNat s.ST,
      tick_frame s⟩
  · intro free s r hhalt
    exact transact_tick_of_halted hhalt free

/-! ### The keypad and the host's reads (R252, R255, R256) -/

theorem setKeys_frame (s : State) (k : BitVec 16) : SameBut (fun e => ∃ j, e = .key j) s (s.setKeys k) := by
  intro e he
  cases e
  case key j => exact absurd ⟨j, rfl⟩ he
  all_goals rfl

/-- Settles O51: `SetKeys` writes the key vector alone (`setKeys_frame`), each key its bit (`keysOf_getElem`). -/
theorem setKeysWritesEveryKey : Obligations.SetKeysWritesEveryKey := by
  unfold Obligations.SetKeysWritesEveryKey
  intro free s k hrun
  exact ⟨s.setKeys k, transact_setKeys_of_running hrun free k, keysOf_getElem k, setKeys_frame s k⟩

/-- Settles O59: each read answers its element of the state it is given, and the keypad's the vector `SetKeys` wrote. -/
theorem hostReadsAnswerTheStateUnchanged : Obligations.HostReadsAnswerTheStateUnchanged := by
  unfold Obligations.HostReadsAnswerTheStateUnchanged
  intro free s hrun
  refine ⟨transact_readFramebuffer free s, transact_readTone free s, transact_readKeys free s, fun k => ?_⟩
  exact ⟨s.setKeys k, keysOf k, transact_setKeys_of_running hrun free k, transact_readKeys free _, keysOf_getElem k⟩

end Sys2Proof.Machine
end

section
/-! Reset, the platform's font and the image (70_reset_and_hazards.md): what creation and `LoadImage` put in memory, and the end of a run (R272 to R283). -/

namespace Sys2Proof.Machine

/-! ### The platform's font (R272) -/

/-- Creation differs from `reset` in the configuration and in the font's bytes alone. -/
theorem create_frame {p : Config.Params} (hp : p.wf = true) :
    SameBut (fun e => e = .params ∨ ∃ a, e = .mem a ∧ a < p.fontPreload.length) State.reset (State.create p) := by
  intro e he
  cases e
  case params => exact absurd (.inl rfl) he
  case mem a =>
    have hout : p.fontPreload.length ≤ a := Nat.not_lt.1 fun ha => he (.inr ⟨a, rfl, ha⟩)
    exact (State.create_readByte p hp a).trans (List.getD_eq_default _ _ hout)
  all_goals rfl

/-- Settles O19: the bytes at creation are `State.create_readByte`, the other elements `create_frame`. -/
theorem fontPreloadLiesAtZero : Obligations.FontPreloadLiesAtZero := by
  unfold Obligations.FontPreloadLiesAtZero
  intro p hp
  exact ⟨State.create_readByte p hp, create_frame hp⟩

/-! ### `LoadImage`, by its cases (R234, R276, R277) -/

theorem transact_loadImage_of_fits {s : State} {image : List Byte} (hrun : s.status = .running)
    (hfits : 0x200 + image.length ≤ s.memSize) (free : State) :
    transact free (.loadImage image) s = some (s.load image, .loaded) := by
  simp only [transact, hrun, State.imageFits_iff.2 hfits, if_true]

theorem transact_loadImage_of_tooLarge {s : State} {image : List Byte} (hrun : s.status = .running)
    (hlarge : s.memSize < 0x200 + image.length) (free : State) :
    transact free (.loadImage image) s = some (s, .imageTooLarge) := by
  have hfits : ¬ s.imageFits image = true := fun h => Nat.not_le.2 hlarge (State.imageFits_iff.1 h)
  simp only [transact, hrun, if_neg hfits]

theorem transact_loadImage_of_halted {s : State} {r : HaltReason} (hhalt : s.status = .halted r) (free : State)
    (image : List Byte) : transact free (.loadImage image) s = none := by
  simp only [transact, hhalt]

/-- `LoadImage` answers `Ok` only for an image that fits, with the image loaded. -/
theorem load_of_transact_loaded {free s t : State} {image : List Byte}
    (h : transact free (.loadImage image) s = some (t, .loaded)) :
    0x200 + image.length ≤ s.memSize ∧ t = s.load image := by
  cases hs : s.status with
  | halted r => rw [transact_loadImage_of_halted hs] at h; cases h
  | running =>
    obtain hlarge | hfits := Nat.lt_or_ge s.memSize (0x200 + image.length)
    · rw [transact_loadImage_of_tooLarge hs hlarge] at h; cases h
    · rw [transact_loadImage_of_fits hs hfits] at h; cases h; exact ⟨hfits, rfl⟩

/-- Byte `j` of the image lies at `0x200 + j` (R276). -/
theorem load_readByte_of_lt (s : State) {image : List Byte} {j : Nat} (hj : j < image.length) :
    (s.load image).readByte (0x200 + j) = image[j] :=
  storeBytes_readByte_of_lt s 0x200 hj

/-- A load writes the image's bytes alone. -/
theorem load_frame (s : State) (image : List Byte) :
    SameBut (fun e => ∃ a, e = .mem a ∧ 0x200 ≤ a ∧ a < 0x200 + image.length) s (s.load image) :=
  (SameBut.refl _ s).storeBytes fun a hlo hhi => ⟨a, rfl, hlo, hhi⟩

/-- Settles O52, by the three cases of `LoadImage`. -/
theorem loadImageCopiesOrRefusesWhole : Obligations.LoadImageCopiesOrRefusesWhole := by
  unfold Obligations.LoadImageCopiesOrRefusesWhole
  refine ⟨fun free s image hrun => ⟨fun hfits => ?_, fun hlarge => ?_⟩, fun free s image r hhalt => ?_⟩
  · exact ⟨s.load image, transact_loadImage_of_fits hrun hfits free, fun _ hj => load_readByte_of_lt s hj, load_frame s image⟩
  · exact transact_loadImage_of_tooLarge hrun hlarge free
  · exact transact_loadImage_of_halted hhalt free image

/-- Settles O53: the image ends within memory, so the fetch answers the word of the two bytes loaded there. -/
theorem loadedImageIsFetchedBigEndian : Obligations.LoadedImageIsFetchedBigEndian := by
  unfold Obligations.LoadedImageIsFetchedBigEndian
  intro free s t image j hj hload hpc
  obtain ⟨hfits, rfl⟩ := load_of_transact_loaded hload
  have hmem : (s.load image).pc.toNat + 1 < (s.load image).memSize := by
    rw [hpc, State.load_memSize]; omega
  obtain ⟨w, hfetch, hw⟩ := exists_fetch_of_lt_memSize hmem
  refine ⟨w, hfetch, ?_⟩
  rw [hw, hpc, load_readByte_of_lt s (Nat.lt_of_succ_lt hj), Nat.add_assoc, load_readByte_of_lt s hj]

/-! ### The end of a run (R283) -/

/-- A jump to itself only empties the report list. -/
theorem step_of_endedNormally {s : State} (h : s.EndedNormally) : step s = .next s.beginStep := by
  obtain ⟨hrun, w, nnn, hfetch, hdec, htarget⟩ := h
  calc step s
      _ = exec (.jpAddr nnn) s.beginStep := step_instr hrun hfetch hdec
      _ = .next (s.beginStep.setPc s.pc) := by rw [← htarget]; rfl
      _ = .next s.beginStep := rfl

/-- The report list is no part of what makes a run ended. -/
theorem endedNormally_beginStep {s : State} (h : s.EndedNormally) : s.beginStep.EndedNormally := h

/-- Any positive number of steps from a normally ended state is one step's change, by induction on the number. -/
theorem run_of_endedNormally {s : State} (h : s.EndedNormally) (n : Nat) : core.run (n + 1) s = .next s.beginStep := by
  induction n generalizing s with
  | zero => exact core_run_succ (step_of_endedNormally h) 0
  | succ n ih =>
    calc core.run (n + 2) s
        _ = core.run (n + 1) s.beginStep := core_run_succ (step_of_endedNormally h) (n + 1)
        _ = .next s.beginStep.beginStep := ih (endedNormally_beginStep h)
        _ = .next s.beginStep := rfl

/-- Settles O54, by the run from an ended state (`run_of_endedNormally`). -/
theorem selfJumpIsSteady : Obligations.SelfJumpIsSteady := by
  unfold Obligations.SelfJumpIsSteady
  intro s n h
  exact ⟨run_of_endedNormally h n, endedNormally_beginStep h⟩

end Sys2Proof.Machine
end

section
/-! The outcome of a step: the instruction it runs (R100, R101), its reports (R232), the halt (R234), and that nothing is refused or written to the configuration (R5). -/

namespace Sys2Proof.Machine

open Sys2Proof.Claims

/-! ### The instruction run -/

/-- Settles O6: the word given by its bytes is the one fetched. -/
theorem stepRunsDecodedInstruction : Obligations.StepRunsDecodedInstruction := by
  unfold Obligations.StepRunsDecodedInstruction
  intro s w i hrun hpc hw hdec
  exact step_instr hrun (State.fetch_eq_some.2 ⟨hpc, hw⟩) hdec

/-! ### Reports (R232) -/

theorem reportsOf_of_unrecognized {s : State} {w : Word} {why : Unrecognized}
    (hdec : decode s.params w = .unrecognized why) : reportsOf s w = [.unknownOpcode s.pc w] := by
  simp only [reportsOf, hdec]

/-- The table's reports of a word that decodes are those its instruction appends. -/
theorem reportsOf_of_instr {s : State} {w : Word} {i : Instr} (hdec : decode s.params w = .instr i) :
    reportsOf s w = instrReports s i := by
  unfold reportsOf
  rw [hdec]
  cases i <;> rfl

/-- Settles O10: the two cases of a step that go on, an unrecognized word and an instruction, start from an empty list. -/
theorem stepReportsAreThoseOfTheTable : Obligations.StepReportsAreThoseOfTheTable := by
  unfold Obligations.StepReportsAreThoseOfTheTable
  intro s t h
  obtain ⟨r, -, he⟩ | ⟨-, -, he⟩ | ⟨w, why, -, hfetch, hdec, he⟩ | ⟨w, i, -, hfetch, hdec, he⟩ := step_cases s <;>
    rw [he] at h
  · cases h
  · cases h
  · cases h
    exact ⟨w, hfetch, (reportsOf_of_unrecognized hdec).symm, Nat.le_refl 1⟩
  · have hreports : t.reports = instrReports s i := exec_reports h
    exact ⟨w, hfetch, hreports.trans (reportsOf_of_instr hdec).symm, hreports ▸ instrReports_length_le s i⟩

/-! ### The configuration (R5) -/

theorem step_params {s t : State} (h : step s = .next t) : t.params = s.params := by
  obtain ⟨r, -, he⟩ | ⟨-, -, he⟩ | ⟨w, why, -, -, -, he⟩ | ⟨w, i, -, -, -, he⟩ := step_cases s <;> rw [he] at h
  · cases h
  · cases h
  · cases h; rfl
  · exact (exec_params_status h).1

/-- Settles O20, by the cases of one transaction: a step keeps the configuration, a halt too, and no other body writes it. -/
theorem transactionsKeepConfiguration : Obligations.TransactionsKeepConfiguration := by
  unfold Obligations.TransactionsKeepConfiguration
  intro free s t a r h
  obtain rfl | ⟨-, -, hst⟩ | ⟨why, -, -, -, rfl⟩ | ⟨-, -, rfl⟩ | ⟨image, -, -, -, rfl⟩ | ⟨k, -, -, rfl⟩ :=
    transact_cases h
  · rfl
  · exact step_params hst
  · exact State.halt_params s free why
  · exact State.tick_params s
  · exact State.load_params s image
  · exact State.setKeys_params s k

/-! ### The halt (R231, R234) -/

theorem transact_step_of_halted {s : State} {r : HaltReason} (hhalt : s.status = .halted r) (free : State) :
    transact free .step s = none := by
  simp only [transact, hhalt]

theorem transact_setKeys_of_halted {s : State} {r : HaltReason} (hhalt : s.status = .halted r) (free : State)
    (k : BitVec 16) : transact free (.setKeys k) s = none := by
  simp only [transact, hhalt]

theorem transact_step_of_fatal {s : State} {r : HaltReason} (hrun : s.status = .running)
    (hfatal : step s = .fault (.fatal r)) (free : State) :
    transact free .step s = some (s.halt free r, .fatal r) := by
  simp only [transact, hrun, stepTransaction, hfatal]

/-- Settles O9, entry point by entry point; a fatal step leaves the halted state of its reason. -/
theorem haltedMachineHasNoTransition : Obligations.HaltedMachineHasNoTransition := by
  unfold Obligations.HaltedMachineHasNoTransition
  constructor
  · intro free s r image k hhalt
    exact ⟨transact_step_of_halted hhalt free, transact_tick_of_halted hhalt free,
      transact_loadImage_of_halted hhalt free image, transact_setKeys_of_halted hhalt free k, step_halted hhalt⟩
  · intro free s r hrun hfatal
    exact ⟨s.halt free r, transact_step_of_fatal hrun hfatal free, State.halt_status s free r⟩

/-! ### Refusals -/

/-- A key skip goes on or faults. -/
theorem State.skipOnKey_ne_refused (s : State) (x : Reg) (pressed : Bool) (r : Refusal) :
    s.skipOnKey x pressed ≠ .refused r := by
  unfold State.skipOnKey
  cases keyIndex (s.reg x) <;> simp [raise]

/-- Every instruction has a meaning: it goes on or faults. -/
theorem exec_ne_refused (i : Instr) (s : State) (r : Refusal) : exec i s ≠ .refused r := by
  intro h
  cases i
  case ret => simp only [exec, execRet] at h; split at h <;> cases h
  case callAddr nnn =>
    simp only [exec, execCallAddr] at h
    split at h
    · cases h
    · split at h <;> cases h
  case ldVxK x => simp only [exec, execLdVxK] at h; split at h <;> cases h
  case skpVx x | sknpVx x => exact State.skipOnKey_ne_refused s x _ r h
  case drw x y n | ldBVx x | ldMemVx x | ldVxMem x => exact State.ifInRange_ne_refused h
  all_goals cases h

/-- Settles O12: of the four cases of a step only the instruction's could refuse, and none does (`exec_ne_refused`). -/
theorem noStepIsRefused : Obligations.NoStepIsRefused := by
  unfold Obligations.NoStepIsRefused
  intro s r h
  obtain ⟨_, -, he⟩ | ⟨-, -, he⟩ | ⟨w, why, -, -, -, he⟩ | ⟨w, i, -, -, -, he⟩ := step_cases s <;> rw [he] at h
  · cases h
  · cases h
  · cases h
  · exact exec_ne_refused i _ r h

/-! ### The random draw (R160) -/

/-- Settles O35: the draw is masked bit by bit, and `V[x]` is the one register written. -/
theorem randomIsMaskedFreeDraw : Obligations.RandomIsMaskedFreeDraw := by
  unfold Obligations.RandomIsMaskedFreeDraw
  intro x kk s
  refine ⟨decode_encode (i := .rndVxByte x kk) rfl, _, rfl, setReg_advance_others s.nextDraw x _, rfl, rfl, fun b _ => ?_⟩
  rw [setReg_advance_reg, BitVec.getLsbD_and, State.drawRnd]

end Sys2Proof.Machine
end
